-- ==== Sys2Proof/Word.lean ====
section
/-! DEFINITION. The word types of KX8: the 8-bit byte of registers, immediates and memory, and the
16-bit address of PC, SP and memory (00_scope.md R9, R11). -/

namespace Sys2Proof

/-- A value of a general register, an immediate or a memory byte, 0 to 255 (R11). -/
abbrev Byte := BitVec 8

/-- A value of PC or SP, or a memory address, 0 to 65535 (R11); sums wrap modulo 65536 (R53). -/
abbrev Addr := BitVec 16

end Sys2Proof
end

