-- ==== Sys2Proof/Config.lean ====
section
/-! DEFINITION. What an implementation of KX8 fixes: the opcode map `OPC` (30_encoding.md R86), and the
values the model names where the spec leaves a launch value open (00_scope.md R9). -/

namespace Sys2Proof

/-- The sixteen instructions of R2, as names. -/
inductive Mnemonic where
  | movRR | movRI | addRR | addRI | subRR | subRI | cmpRR | cmpRI
  | mul | div | jmp | jz | jnz | call | ret | hlt
  deriving DecidableEq, Repr

/-- The four formats of R82: no operand, two registers, register and immediate, 16-bit target. -/
inductive Format where
  | n | rr | ri | a
  deriving DecidableEq, Repr

/-- Every instruction, in the order of R86's table. -/
def Mnemonic.all : List Mnemonic :=
  [.movRR, .movRI, .addRR, .addRI, .subRR, .subRI, .cmpRR, .cmpRI,
   .mul, .div, .jmp, .jz, .jnz, .call, .ret, .hlt]

/-- `OPC`: an injective map from the sixteen instructions to opcode bytes (R86). -/
structure OpcodeMap where
  /-- The opcode byte of an instruction. -/
  code : Mnemonic → Byte
  /-- No two instructions share an opcode byte. -/
  injective : ∀ m n, code m = code n → m = n

/-- The reference assignment of R86. The source gives no values: the numbers are the spec's own
decision D3 (log 8). -/
def Config.referenceCode : Mnemonic → Byte
  | .movRR => 0x01
  | .movRI => 0x02
  | .addRR => 0x03
  | .addRI => 0x04
  | .subRR => 0x05
  | .subRI => 0x06
  | .cmpRR => 0x07
  | .cmpRI => 0x08
  | .mul => 0x09
  | .div => 0x0A
  | .jmp => 0x0B
  | .jz => 0x0C
  | .jnz => 0x0D
  | .call => 0x0E
  | .ret => 0x0F
  | .hlt => 0x10

/-- The reference assignment with the proof that it is injective. -/
def Config.referenceOpc : OpcodeMap where
  code := Config.referenceCode
  injective := by
    intro m n h
    cases m <;> cases n <;> first | rfl | exact absurd h (by decide)

/-- What a byte of memory reads as when nothing has written it: the spec leaves it open as `MEM_INIT`
(R60, D8). DESIGN CHOICE 0x00, unsafe (log 4). -/
def Config.memFill : Byte := 0x00

/-- The value of A to D in `State.reset`; the spec gives none (R35, D6). DESIGN CHOICE 0, unsafe (log 1). -/
def Config.regReset : Byte := 0x00

/-- The value of the flags in `State.reset`; the spec gives none (R35, D6). DESIGN CHOICE false, unsafe (log 2). -/
def Config.flagReset : Bool := false

/-- `SP_INIT` in `State.reset`; the spec leaves it to the host (R261, D7). DESIGN CHOICE 0x0000, so that
the first CALL writes the top of memory, unsafe (log 3). -/
def Config.spReset : Addr := 0x0000

end Sys2Proof
end

