-- ==== Sys2Proof/Syntax.lean ====
section
/-! DEFINITION. The instruction set of KX8: one constructor per row of the opcode table (00_scope.md R2).
A register operand stands as the operand byte the instruction holds, because a byte above 3 is an
instruction that raises IllegalRegister when it runs (30_encoding.md R89), not an encoding that fails to
decode (R87). -/

namespace Sys2Proof

/-- A KX8 instruction with its operands. `rd` and `rs` are the register-index bytes `d` and `s` of R82,
`imm` is the 8-bit immediate of R84, and `target` is the absolute 16-bit address of R85. -/
inductive Instr where
  /-- MOV_RR, R140. -/
  | movRR (rd rs : Byte)
  /-- MOV_RI, R141. -/
  | movRI (rd imm : Byte)
  /-- ADD_RR, R152. -/
  | addRR (rd rs : Byte)
  /-- ADD_RI, R153. -/
  | addRI (rd imm : Byte)
  /-- SUB_RR, R155. -/
  | subRR (rd rs : Byte)
  /-- SUB_RI, R156. -/
  | subRI (rd imm : Byte)
  /-- CMP_RR, R158. -/
  | cmpRR (rd rs : Byte)
  /-- CMP_RI, R159. -/
  | cmpRI (rd imm : Byte)
  /-- MUL, R161. -/
  | mul (rd rs : Byte)
  /-- DIV, R163. -/
  | div (rd rs : Byte)
  /-- JMP, R193. -/
  | jmp (target : Addr)
  /-- JZ, R194. -/
  | jz (target : Addr)
  /-- JNZ, R195. -/
  | jnz (target : Addr)
  /-- CALL, R196. -/
  | call (target : Addr)
  /-- RET, R197. -/
  | ret
  /-- HLT, R220. -/
  | hlt
  deriving DecidableEq, Repr

end Sys2Proof
end

