-- ==== Sys2Proof/WellFormed.lean ====
section
/-! DEFINITION. The instructions whose operands are all legal: every register-index byte is 0 to 3, and
every immediate and every target is legal (30_encoding.md R83, R84, R85, R89). -/

namespace Sys2Proof

/-- A register-index byte that names one of A to D (R83). -/
def legalIndex (b : Byte) : Bool := decide (b.toNat ≤ 3)

/-- Every register-index operand of the instruction names a register (R89). -/
def Instr.wellFormed : Instr → Bool
  | .movRR rd rs => legalIndex rd && legalIndex rs
  | .movRI rd _ => legalIndex rd
  | .addRR rd rs => legalIndex rd && legalIndex rs
  | .addRI rd _ => legalIndex rd
  | .subRR rd rs => legalIndex rd && legalIndex rs
  | .subRI rd _ => legalIndex rd
  | .cmpRR rd rs => legalIndex rd && legalIndex rs
  | .cmpRI rd _ => legalIndex rd
  | .mul rd rs => legalIndex rd && legalIndex rs
  | .div rd rs => legalIndex rd && legalIndex rs
  | .jmp _ => true
  | .jz _ => true
  | .jnz _ => true
  | .call _ => true
  | .ret => true
  | .hlt => true

end Sys2Proof
end

