-- ==== Sys2Proof/Decode.lean ====
section
/-! DEFINITION. The encoding of KX8 (30_encoding.md §1 to §4): lengths, formats, the decoder, total on
any bytes and rejecting by name, and after it the encoder. Both take the opcode map `OPC` as an argument
(R86); `decode`, `encode` and `decodeTableWord` fix the reference assignment. -/

namespace Sys2Proof

/-! ### Byte order -/

/-- The 16-bit value `hi:lo = hi * 256 + lo` (R11, R85). -/
def word16 (hi lo : Byte) : Addr := BitVec.ofNat 16 (hi.toNat * 256 + lo.toNat)

/-- Bits 7:0 of a 16-bit value (R10). -/
def loByte (v : Addr) : Byte := BitVec.ofNat 8 v.toNat

/-- Bits 15:8 of a 16-bit value (R10). -/
def hiByte (v : Addr) : Byte := BitVec.ofNat 8 (v.toNat / 256)

/-! ### Formats and lengths -/

/-- The format of each instruction (R82, R86). -/
def Mnemonic.format : Mnemonic → Format
  | .movRR => .rr
  | .movRI => .ri
  | .addRR => .rr
  | .addRI => .ri
  | .subRR => .rr
  | .subRI => .ri
  | .cmpRR => .rr
  | .cmpRI => .ri
  | .mul => .rr
  | .div => .rr
  | .jmp => .a
  | .jz => .a
  | .jnz => .a
  | .call => .a
  | .ret => .n
  | .hlt => .n

/-- The number of operand bytes after the opcode byte (R82). -/
def Format.operandBytes : Format → Nat
  | .n => 0
  | .rr => 2
  | .ri => 2
  | .a => 2

/-- The length in bytes: 1 for RET and HLT, 3 for every other instruction (R80, R81). -/
def Mnemonic.length (m : Mnemonic) : Nat := 1 + m.format.operandBytes

/-- The instruction's name, which alone selects its opcode byte (R81, R87). -/
def Instr.mnemonic : Instr → Mnemonic
  | .movRR _ _ => .movRR
  | .movRI _ _ => .movRI
  | .addRR _ _ => .addRR
  | .addRI _ _ => .addRI
  | .subRR _ _ => .subRR
  | .subRI _ _ => .subRI
  | .cmpRR _ _ => .cmpRR
  | .cmpRI _ _ => .cmpRI
  | .mul _ _ => .mul
  | .div _ _ => .div
  | .jmp _ => .jmp
  | .jz _ => .jz
  | .jnz _ => .jnz
  | .call _ => .call
  | .ret => .ret
  | .hlt => .hlt

/-- The length in bytes of an instruction (R80). -/
def Instr.length (i : Instr) : Nat := i.mnemonic.length

/-! ### Decoding -/

/-- The instruction whose `OPC` value is exactly this byte (R87, R122); none for an illegal opcode (R88). -/
def OpcodeMap.lookup (opc : OpcodeMap) (b : Byte) : Option Mnemonic :=
  Mnemonic.all.find? fun m => opc.code m == b

/-- The instruction with this name whose operand bytes 1 and 2 are `b1` and `b2` (R82). RET and HLT have
no operand bytes. The target of format A has its low byte first (R54, R85). -/
def Instr.ofOperands (m : Mnemonic) (b1 b2 : Byte) : Instr :=
  match m with
  | .movRR => .movRR b1 b2
  | .movRI => .movRI b1 b2
  | .addRR => .addRR b1 b2
  | .addRI => .addRI b1 b2
  | .subRR => .subRR b1 b2
  | .subRI => .subRI b1 b2
  | .cmpRR => .cmpRR b1 b2
  | .cmpRI => .cmpRI b1 b2
  | .mul => .mul b1 b2
  | .div => .div b1 b2
  | .jmp => .jmp (word16 b2 b1)
  | .jz => .jz (word16 b2 b1)
  | .jnz => .jnz (word16 b2 b1)
  | .call => .call (word16 b2 b1)
  | .ret => .ret
  | .hlt => .hlt

/-- Why a byte sequence does not begin with an instruction. -/
inductive DecodeError where
  /-- There is no opcode byte. The core's fetch never meets this: every address holds a byte (R53). -/
  | noOpcode
  /-- The opcode byte is not in the image of `OPC` (R88). -/
  | illegalOpcode (op : Byte)
  /-- A 3-byte instruction with fewer than two operand bytes. The core's fetch never meets this (R53). -/
  | truncated (m : Mnemonic)
  deriving DecidableEq, Repr

/-- Reads one instruction from the front of a byte sequence and gives the bytes after it (R80 to R88). -/
def decodeWith (opc : OpcodeMap) : List Byte → Except DecodeError (Instr × List Byte)
  | [] => .error .noOpcode
  | op :: rest =>
    match opc.lookup op with
    | none => .error (.illegalOpcode op)
    | some m =>
      match m.format.operandBytes with
      | 0 => .ok (Instr.ofOperands m 0 0, rest)
      | _ =>
        match rest with
        | b1 :: b2 :: tail => .ok (Instr.ofOperands m b1 b2, tail)
        | _ => .error (.truncated m)

/-- The decoder under the reference opcode assignment of R86. -/
def decode (bytes : List Byte) : Except DecodeError (Instr × List Byte) :=
  decodeWith Config.referenceOpc bytes

/-! ### Encoding -/

/-- Operand bytes 1 and 2 of an instruction, in stream order (R82, R85). -/
def Instr.operands : Instr → List Byte
  | .movRR rd rs => [rd, rs]
  | .movRI rd imm => [rd, imm]
  | .addRR rd rs => [rd, rs]
  | .addRI rd imm => [rd, imm]
  | .subRR rd rs => [rd, rs]
  | .subRI rd imm => [rd, imm]
  | .cmpRR rd rs => [rd, rs]
  | .cmpRI rd imm => [rd, imm]
  | .mul rd rs => [rd, rs]
  | .div rd rs => [rd, rs]
  | .jmp target => [loByte target, hiByte target]
  | .jz target => [loByte target, hiByte target]
  | .jnz target => [loByte target, hiByte target]
  | .call target => [loByte target, hiByte target]
  | .ret => []
  | .hlt => []

/-- The bytes of an instruction under an opcode map (R82, R86). -/
def encodeWith (opc : OpcodeMap) (i : Instr) : List Byte := opc.code i.mnemonic :: i.operands

/-- The bytes of an instruction under the reference opcode assignment. -/
def encode (i : Instr) : List Byte := encodeWith Config.referenceOpc i

/-! ### The opcode table's words -/

/-- The three bytes, first byte lowest, of an instruction word whose bits above `nbits` are 0. Three
bytes is the longest instruction (R80). -/
def tableBytes (nbits w : Nat) : List Byte :=
  let v := w % 2 ^ nbits
  [BitVec.ofNat 8 v, BitVec.ofNat 8 (v / 256), BitVec.ofNat 8 (v / 65536)]

/-- The instruction the decoder reads from a word of the opcode table. -/
def decodeTableWord (nbits w : Nat) : Option Instr :=
  match decode (tableBytes nbits w) with
  | .ok (i, _) => some i
  | .error _ => none

end Sys2Proof
end

