-- ==== Sys2Proof/Machine/State.lean ====
section
/-! DEFINITION. The architectural state of KX8 (10_state.md) as plain data, the reasons a step can stop,
and the state after reset. -/

namespace Sys2Proof.Machine

/-- The four general registers, index 0 to 3 (R20). -/
inductive Reg where
  | a | b | c | d
  deriving DecidableEq, Repr

/-- The register file: four independent bytes, none of them hard-wired (R20). -/
structure RegFile where
  a : Byte
  b : Byte
  c : Byte
  d : Byte
  deriving DecidableEq, Repr

/-- The run state (R31). Halted and Faulted are terminal until a reset (R221, R236). -/
inductive RunState where
  | running | halted | faulted
  deriving DecidableEq, Repr

/-- The execution faults of R231, each with the value it records. -/
inductive HwFault where
  /-- Byte 0 is no opcode (R88). Raised by the opcode fetch of any step, with the opcode byte. -/
  | illegalOpcode (op : Byte)
  /-- A register-index byte above 3 (R124). Raised by the RR and RI instructions, with the operand byte. -/
  | illegalRegister (b : Byte)
  /-- The divisor register holds 0 (R163). Raised by DIV, with the divisor register's index. -/
  | divideByZero (index : Byte)
  deriving DecidableEq, Repr

/-- Memory as (address, byte) pairs in the canonical form of `Memory.wf`; an address that is not listed
reads as `Config.memFill` (R50, R60). -/
abbrev Memory := List Host.Cell

/-- Everything the spec gives the machine (10_state.md's table; memory, 20_memory.md R50). -/
structure State where
  /-- The general registers A to D (R20). -/
  regs : RegFile
  /-- The program counter (R23). -/
  pc : Addr
  /-- The stack pointer (R27). -/
  sp : Addr
  /-- The `zero` flag (R28). -/
  z : Bool
  /-- The `carry` flag (R29). -/
  c : Bool
  /-- The run state (R31). -/
  run : RunState
  /-- The cause code of the fault taken, or 0 (R32). -/
  fcause : Byte
  /-- The value the fault recorded, or 0 (R32). -/
  finfo : Byte
  /-- The 65536 bytes of memory (R50). -/
  mem : Memory
  deriving DecidableEq, Repr

/-- Why `step` stops. An execution fault of R231 is not one of these: its entry is a next state whose
`run` is Faulted (log 6). -/
inductive Fault where
  /-- A step requested of a Halted core, which has none (R120, R221). Raised by `step` alone. Safe: the
  model stops where the spec has no step (log 7). -/
  | stepWhileHalted
  /-- A step requested of a Faulted core, which has none (R120, R236), with the recorded cause and value.
  Raised by `step` alone. Safe: the model stops where the spec has no step (log 7). -/
  | stepWhileFaulted (cause info : Byte)
  deriving DecidableEq, Repr

/-- Why an instruction has no meaning in the model. No instruction is refused (R129). -/
inductive Refusal where
  /-- An instruction without a meaning yet; raised by an arm of `exec` only. Safe. No arm raises it. -/
  | notModelled (mnemonic : String)
  deriving DecidableEq, Repr

/-- The machine right after reset (R35, R260): the PC at 0x0000, Running, no fault recorded. The spec
gives no value for A to D, Z, C, SP and memory outside the image; those are the values that Config
names (log 1 to log 4). -/
def State.reset : State where
  regs := ⟨Config.regReset, Config.regReset, Config.regReset, Config.regReset⟩
  pc := 0x0000
  sp := Config.spReset
  z := Config.flagReset
  c := Config.flagReset
  run := .running
  fcause := 0
  finfo := 0
  mem := []

end Sys2Proof.Machine
end

