-- ==== Sys2Proof/Machine/Ops.lean ====
section
/-! DEFINITION. The named operations over memory, registers and state that every meaning is written
with: the memory port (20_memory.md R52), the primitives of 00_scope.md R12, `fetch8` (40_dispatch.md
R121), `push16` and `pop16` (43_control.md R190, R191), fault entry (60_exceptions.md R234) and the reset
that alone leaves Faulted (70_reset_and_hazards.md R260). -/

namespace Sys2Proof.Machine

/-! ### Memory -/

/-- The byte listed at an address, or the fill byte (R50, R60). -/
def Memory.lookup : Memory → Nat → Byte
  | [], _ => Config.memFill
  | (k, v) :: rest, a => if a = k then v else Memory.lookup rest a

/-- Lists nothing at an address. -/
def Memory.erase (m : Memory) (a : Nat) : Memory := m.filter fun cell => cell.1 ≠ a

/-- Lists a byte at an address that is not listed, before the first higher address. -/
def Memory.place : Memory → Nat → Byte → Memory
  | [], a, v => [(a, v)]
  | (k, w) :: rest, a, v =>
    if a < k then (a, v) :: (k, w) :: rest else (k, w) :: Memory.place rest a v

/-- Stores a byte at an address and keeps the canonical form: storing the fill byte lists nothing. -/
def Memory.insert (m : Memory) (a : Nat) (v : Byte) : Memory :=
  if v = Config.memFill then m.erase a else (m.erase a).place a v

/-- `MemRead(addr, 1)` (R12, R52): every 16-bit address holds a byte (R53). -/
def Memory.read (m : Memory) (a : Addr) : Byte := Memory.lookup m a.toNat

/-- `MemWrite(addr, 1, v)` (R12, R52): stores the byte and nothing else (R58). -/
def Memory.write (m : Memory) (a : Addr) (v : Byte) : Memory := Memory.insert m a.toNat v

/-- Stores consecutive bytes from an address up, wrapping at 0xFFFF (R53). -/
def Memory.writeBytes (m : Memory) (a : Addr) : List Byte → Memory
  | [] => m
  | v :: rest => Memory.writeBytes (m.write a v) (a + 1) rest

/-- The canonical form from address `lo` up: addresses strictly rising and below 65536, and no entry
equal to the fill byte. -/
def Memory.wfFrom : Nat → Memory → Bool
  | _, [] => true
  | lo, (k, v) :: rest =>
    decide (lo ≤ k) && decide (k < 65536) && decide (v ≠ Config.memFill) && Memory.wfFrom (k + 1) rest

/-- The canonical form of memory. -/
def Memory.wf (m : Memory) : Bool := Memory.wfFrom 0 m

/-! ### Registers -/

/-- The index byte of a register: A is 0, B is 1, C is 2, D is 3 (R20). -/
def Reg.index : Reg → Byte
  | .a => 0
  | .b => 1
  | .c => 2
  | .d => 3

/-- Reads one register. -/
def RegFile.get (f : RegFile) : Reg → Byte
  | .a => f.a
  | .b => f.b
  | .c => f.c
  | .d => f.d

/-- Writes one register and no other (R20). -/
def RegFile.set (f : RegFile) (r : Reg) (v : Byte) : RegFile :=
  match r with
  | .a => { f with a := v }
  | .b => { f with b := v }
  | .c => { f with c := v }
  | .d => { f with d := v }

/-! ### State accessors -/

/-- `x[i]` (R12). -/
def State.reg (s : State) (r : Reg) : Byte := s.regs.get r

/-- `x[i] <- v` (R12). -/
def State.setReg (s : State) (r : Reg) (v : Byte) : State := { s with regs := s.regs.set r v }

/-- `pc <- target` (R12). -/
def State.setPc (s : State) (a : Addr) : State := { s with pc := a }

/-- `sp <- a` (R12). -/
def State.setSp (s : State) (a : Addr) : State := { s with sp := a }

/-- `Z <- b` (R12). -/
def State.setZ (s : State) (b : Bool) : State := { s with z := b }

/-- `C <- b` (R12). -/
def State.setC (s : State) (b : Bool) : State := { s with c := b }

/-- `run <- r` (R12, R31). -/
def State.setRun (s : State) (r : RunState) : State := { s with run := r }

/-- Writes the two fault status registers (R32). -/
def State.setFault (s : State) (cause info : Byte) : State := { s with fcause := cause, finfo := info }

/-- `MemRead(a, 1)` on the state's memory (R12). -/
def State.load (s : State) (a : Addr) : Byte := s.mem.read a

/-- `MemWrite(a, 1, v)` on the state's memory (R12). -/
def State.store (s : State) (a : Addr) (v : Byte) : State := { s with mem := s.mem.write a v }

/-! ### Fetch and stack -/

/-- `pc` after `n` bytes have been fetched: each fetch adds one, modulo 65536 (R24, R121). -/
def State.advance (s : State) (n : Nat) : State := s.setPc (s.pc + BitVec.ofNat 16 n)

/-- `fetch8()` (R121): the byte at the PC, and the PC moved past it. -/
def State.fetch8 (s : State) : Byte × State := (s.load s.pc, s.setPc (s.pc + 1))

/-- `push16(v)` (R190): high byte first, at the higher address. -/
def State.push16 (s : State) (v : Addr) : State :=
  let s1 := s.setSp (s.sp - 1)
  let s2 := s1.store s1.sp (hiByte v)
  let s3 := s2.setSp (s2.sp - 1)
  s3.store s3.sp (loByte v)

/-- `pop16()` (R191): low byte first, then the byte above it. -/
def State.pop16 (s : State) : Addr × State :=
  let lo := s.load s.sp
  let s1 := s.setSp (s.sp + 1)
  let hi := s1.load s1.sp
  let s2 := s1.setSp (s1.sp + 1)
  (word16 hi lo, s2)

/-! ### Faults and reset -/

/-- The `fcause` code of a fault (R231). -/
def HwFault.code : HwFault → Byte
  | .illegalOpcode _ => 1
  | .illegalRegister _ => 2
  | .divideByZero _ => 3

/-- The `finfo` value of a fault (R231). -/
def HwFault.info : HwFault → Byte
  | .illegalOpcode op => op
  | .illegalRegister b => b
  | .divideByZero index => index

/-- Fault entry (R234): Faulted, the cause and its value recorded, the PC back at the faulting
instruction's opcode byte, and nothing else changed. -/
def takeFault (f : HwFault) (start : Addr) (s : State) : State :=
  ((s.setRun .faulted).setFault f.code f.info).setPc start

/-- The fault a Faulted state records, read back from its cause code and value (R231); none in any other
state. -/
def State.recordedFault (s : State) : Option HwFault :=
  match s.run with
  | .running => none
  | .halted => none
  | .faulted =>
    match s.fcause.toNat with
    | 1 => some (.illegalOpcode s.finfo)
    | 2 => some (.illegalRegister s.finfo)
    | 3 => some (.divideByZero s.finfo)
    | _ => none

/-- What a reset leaves open (R9): `SP_INIT`, which the host chooses (R261), and the values of A to D, Z
and C, which an implementation may choose freely (R35, D6). -/
structure ResetValues where
  sp : Addr
  regs : RegFile
  z : Bool
  c : Bool
  deriving DecidableEq, Repr

/-- `reset(sp_init)` (R260). It is allowed in every run state, it is the only way out of Halted and
Faulted (R221, R236), and it does not change memory. -/
def State.resetBy (v : ResetValues) (s : State) : State where
  regs := v.regs
  pc := 0x0000
  sp := v.sp
  z := v.z
  c := v.c
  run := .running
  fcause := 0
  finfo := 0
  mem := s.mem

/-- What the execution of an instruction answers. -/
abbrev Result := Host.Outcome State Fault Refusal

/-- Ends an instruction: the state its lines left, or fault entry from the state `u` that stands once the
operand bytes are consumed. Every `raise` comes before the first write of its instruction (R234). -/
def settle (start : Addr) (u : State) : Except HwFault State → Result
  | .ok t => .next t
  | .error f => .next (takeFault f start u)

end Sys2Proof.Machine
end

