-- ==== Sys2Proof/Machine/Operands.lean ====
section
/-! DEFINITION. The operand forms of KX8 (40_dispatch.md R124, R125; 30_encoding.md R82): how each format
turns its operand bytes into operands, and the shape every instruction of a format runs in. A meaning is
entered with the PC at the opcode byte; the operand bytes were read with the instruction, and `advance`
does what the fetches did to the PC (R123, log 17). -/

namespace Sys2Proof.Machine

/-- `regidx(b)` (R124): a byte above 3 raises IllegalRegister. -/
def regidx (b : Byte) : Except HwFault Reg :=
  match b.toNat with
  | 0 => .ok .a
  | 1 => .ok .b
  | 2 => .ok .c
  | 3 => .ok .d
  | _ => .error (.illegalRegister b)

/-- `decodeRR()` after its fetches (R125): byte 1 is checked before byte 2. -/
def operandsRR (b1 b2 : Byte) : Except HwFault (Reg × Reg) :=
  match regidx b1 with
  | .error f => .error f
  | .ok dst =>
    match regidx b2 with
    | .error f => .error f
    | .ok src => .ok (dst, src)

/-- `decodeRI()` after its fetches (R125): the immediate is used as it stands (R84). -/
def operandsRI (b1 b2 : Byte) : Except HwFault (Reg × Byte) :=
  match regidx b1 with
  | .error f => .error f
  | .ok dst => .ok (dst, b2)

/-- Runs a register-register instruction: three bytes consumed, both indices checked, then its lines. -/
def runRR (b1 b2 : Byte) (s : State) (body : Reg → Reg → State → Except HwFault State) : Result :=
  let u := s.advance 3
  settle s.pc u <|
    match operandsRR b1 b2 with
    | .error f => .error f
    | .ok (dst, src) => body dst src u

/-- Runs a register-immediate instruction: three bytes consumed, the index checked, then its lines. -/
def runRI (b1 b2 : Byte) (s : State) (body : Reg → Byte → State → Except HwFault State) : Result :=
  let u := s.advance 3
  settle s.pc u <|
    match operandsRI b1 b2 with
    | .error f => .error f
    | .ok (dst, imm) => body dst imm u

/-- Runs a format A instruction: three bytes consumed, then its lines. No target is illegal (R85). -/
def runA (target : Addr) (s : State) (body : Addr → State → State) : Result :=
  .next (body target (s.advance 3))

/-- Runs a format N instruction: one byte consumed, then its lines (R123). -/
def runN (s : State) (body : State → State) : Result := .next (body (s.advance 1))

end Sys2Proof.Machine
end

