-- ==== Sys2Proof/Machine/Flags.lean ====
section
/-! DEFINITION. The arithmetic unit and the flag computations of KX8 (42_arith.md R150, R151). Each
function computes the exact integer result, then narrows it; the flags compare the exact result. -/

namespace Sys2Proof.Machine

/-- A result byte with the two flag values its instruction defines. -/
structure AluOut where
  result : Byte
  zero : Bool
  carry : Bool
  deriving DecidableEq, Repr

/-- `Z` is true exactly when the 8-bit value produced is 0 (R28). -/
def zeroFlag (v : Byte) : Bool := decide (v.toNat = 0)

/-- ADD: the sum mod 256; `C` when the exact sum exceeds 255 (R151). -/
def aluAdd (a b : Byte) : AluOut :=
  let t := a.toNat + b.toNat
  let r : Byte := BitVec.ofNat 8 (t % 256)
  ⟨r, zeroFlag r, decide (t > 255)⟩

/-- SUB and CMP: the integer difference mod 256; `C` on borrow, when it is below 0 (R151). -/
def aluSub (a b : Byte) : AluOut :=
  let t : Int := (a.toNat : Int) - (b.toNat : Int)
  let r : Byte := BitVec.ofNat 8 (t % 256).toNat
  ⟨r, zeroFlag r, decide (t < 0)⟩

/-- MUL: bits 7:0 of the product; `C` when the exact product exceeds 255 (R151, R161). -/
def aluMul (a b : Byte) : AluOut :=
  let p := a.toNat * b.toNat
  let r : Byte := BitVec.ofNat 8 (p % 256)
  ⟨r, zeroFlag r, decide (p > 255)⟩

/-- DIV for a divisor that is not 0: the floor quotient (R150; PRESUMED by the spec itself, log 16). A
divisor of 0 gives no value (R164). -/
def aluDiv (a b : Byte) : Option Byte :=
  if b.toNat = 0 then none else some (BitVec.ofNat 8 (a.toNat / b.toNat))

/-- Writes a flag pair. -/
def State.setZC (s : State) (z c : Bool) : State := (s.setZ z).setC c

/-- Writes a result to a register and `Z` from it; `C` stays (MOV, DIV: R28, R29). -/
def State.writeMoved (s : State) (dst : Reg) (v : Byte) : State := (s.setReg dst v).setZ (zeroFlag v)

/-- Writes a result to a register and both flags (ADD, SUB, MUL: R28, R29). -/
def State.writeAlu (s : State) (dst : Reg) (o : AluOut) : State := (s.setReg dst o.result).setZC o.zero o.carry

end Sys2Proof.Machine
end

