-- ==== Sys2Proof/Machine/Arith.lean ====
section
/-! DEFINITION. Arithmetic and compare (42_arith.md): ADD, SUB and CMP in their register and immediate
forms, MUL and DIV. -/

namespace Sys2Proof.Machine

/-- ADD_RR (R152). -/
def execAddRR (rd rs : Byte) (s : State) : Result :=
  runRR rd rs s fun dst src u => .ok (u.writeAlu dst (aluAdd (u.reg dst) (u.reg src)))

/-- ADD_RI (R153). -/
def execAddRI (rd imm : Byte) (s : State) : Result :=
  runRI rd imm s fun dst v u => .ok (u.writeAlu dst (aluAdd (u.reg dst) v))

/-- SUB_RR (R155). -/
def execSubRR (rd rs : Byte) (s : State) : Result :=
  runRR rd rs s fun dst src u => .ok (u.writeAlu dst (aluSub (u.reg dst) (u.reg src)))

/-- SUB_RI (R156). -/
def execSubRI (rd imm : Byte) (s : State) : Result :=
  runRI rd imm s fun dst v u => .ok (u.writeAlu dst (aluSub (u.reg dst) v))

/-- CMP_RR (R158): the flags of SUB, and no register written. -/
def execCmpRR (rd rs : Byte) (s : State) : Result :=
  runRR rd rs s fun dst src u =>
    let o := aluSub (u.reg dst) (u.reg src)
    .ok (u.setZC o.zero o.carry)

/-- CMP_RI (R159): the flags of SUB, and no register written. -/
def execCmpRI (rd imm : Byte) (s : State) : Result :=
  runRI rd imm s fun dst v u =>
    let o := aluSub (u.reg dst) v
    .ok (u.setZC o.zero o.carry)

/-- MUL (R161): the low byte of the product; the high byte is discarded. -/
def execMul (rd rs : Byte) (s : State) : Result :=
  runRR rd rs s fun dst src u => .ok (u.writeAlu dst (aluMul (u.reg dst) (u.reg src)))

/-- DIV (R163): a divisor of 0 raises DivideByZero before any write (R164); `C` is unchanged. -/
def execDiv (rd rs : Byte) (s : State) : Result :=
  runRR rd rs s fun dst src u =>
    match aluDiv (u.reg dst) (u.reg src) with
    | none => .error (.divideByZero src.index)
    | some q => .ok (u.writeMoved dst q)

end Sys2Proof.Machine
end

