-- ==== Sys2Proof/Machine/Control.lean ====
section
/-! DEFINITION. Control transfer and stack (43_control.md): JMP, JZ, JNZ, CALL and RET. -/

namespace Sys2Proof.Machine

/-- JMP (R193). -/
def execJmp (target : Addr) (s : State) : Result :=
  runA target s fun t u => u.setPc t

/-- JZ (R194): not taken, the PC stays after the operand bytes. -/
def execJz (target : Addr) (s : State) : Result :=
  runA target s fun t u => if u.z then u.setPc t else u

/-- JNZ (R195): JZ with the condition inverted. -/
def execJnz (target : Addr) (s : State) : Result :=
  runA target s fun t u => if u.z then u else u.setPc t

/-- CALL (R196): pushes the PC as it stands after the operand bytes, then jumps. The target was read
before the push (R65). -/
def execCall (target : Addr) (s : State) : Result :=
  runA target s fun t u => (u.push16 u.pc).setPc t

/-- RET (R197): jumps to whatever address the two bytes at SP hold. -/
def execRet (s : State) : Result :=
  runN s fun u => u.pop16.2.setPc u.pop16.1

end Sys2Proof.Machine
end

