-- ==== Sys2Proof/Machine/Halt.lean ====
section
/-! DEFINITION. Halt (44_halt.md): HLT. -/

namespace Sys2Proof.Machine

/-- HLT (R220): `run <- Halted`; the PC points just past the HLT byte; nothing else changes. -/
def execHlt (s : State) : Result :=
  runN s fun u => u.setRun .halted

end Sys2Proof.Machine
end

