-- ==== Sys2Proof/Machine/Move.lean ====
section
/-! DEFINITION. Data movement (41_move.md): MOV in its register and immediate forms. -/

namespace Sys2Proof.Machine

/-- MOV_RR (R140): `x[d] <- x[s]`, `Z` from the moved value, `C` unchanged. -/
def execMovRR (rd rs : Byte) (s : State) : Result :=
  runRR rd rs s fun dst src u => .ok (u.writeMoved dst (u.reg src))

/-- MOV_RI (R141): `x[d] <- imm`, `Z` from the immediate, `C` unchanged. -/
def execMovRI (rd imm : Byte) (s : State) : Result :=
  runRI rd imm s fun dst v u => .ok (u.writeMoved dst v)

end Sys2Proof.Machine
end

