-- ==== Sys2Proof/Machine/Dispatch.lean ====
section
/-! DEFINITION. The dispatch of an instruction to its meaning (40_dispatch.md R122). -/

namespace Sys2Proof.Machine

/-- Runs one decoded instruction, entered with the PC at its opcode byte (log 17). -/
def exec (i : Instr) (s : State) : Host.Outcome State Fault Refusal :=
  match i with
  | .movRR rd rs => Sys2Proof.Machine.execMovRR rd rs s
  | .movRI rd imm => Sys2Proof.Machine.execMovRI rd imm s
  | .addRR rd rs => Sys2Proof.Machine.execAddRR rd rs s
  | .addRI rd imm => Sys2Proof.Machine.execAddRI rd imm s
  | .subRR rd rs => Sys2Proof.Machine.execSubRR rd rs s
  | .subRI rd imm => Sys2Proof.Machine.execSubRI rd imm s
  | .cmpRR rd rs => Sys2Proof.Machine.execCmpRR rd rs s
  | .cmpRI rd imm => Sys2Proof.Machine.execCmpRI rd imm s
  | .mul rd rs => Sys2Proof.Machine.execMul rd rs s
  | .div rd rs => Sys2Proof.Machine.execDiv rd rs s
  | .jmp target => Sys2Proof.Machine.execJmp target s
  | .jz target => Sys2Proof.Machine.execJz target s
  | .jnz target => Sys2Proof.Machine.execJnz target s
  | .call target => Sys2Proof.Machine.execCall target s
  | .ret => Sys2Proof.Machine.execRet s
  | .hlt => Sys2Proof.Machine.execHlt s

end Sys2Proof.Machine
end

