-- ==== Sys2Proof/Machine/Fetch.lean ====
section
/-! DEFINITION. Instruction fetch (40_dispatch.md R121, R122): the opcode byte, then as many operand
bytes as its format has, each read by `fetch8`. -/

namespace Sys2Proof.Machine

/-- Fetches and decodes the instruction at the PC. An illegal opcode is reported before any operand byte
is fetched (R235); RET and HLT fetch no operand byte (R123). -/
def fetchInstr (opc : OpcodeMap) (s : State) : Except HwFault Instr :=
  let (op, s1) := s.fetch8
  match opc.lookup op with
  | none => .error (.illegalOpcode op)
  | some m =>
    match m.format.operandBytes with
    | 0 => .ok (Instr.ofOperands m 0 0)
    | _ =>
      let (b1, s2) := s1.fetch8
      let (b2, _) := s2.fetch8
      .ok (Instr.ofOperands m b1 b2)

/-- The three bytes from the PC up, wrapping at 0xFFFF (R24): the longest instruction. -/
def window (s : State) : List Byte := [s.load s.pc, s.load (s.pc + 1), s.load (s.pc + 2)]

/-- Places the bytes of a table word at the PC of a core that runs; what the fetch needs and no more. -/
def placeWord (s : State) (nbits w : Nat) : State :=
  { s.setRun .running with mem := s.mem.writeBytes s.pc (tableBytes nbits w) }

end Sys2Proof.Machine
end

