-- ==== Sys2Proof/Machine/Step.lean ====
section
/-! DEFINITION. One step of the core (40_dispatch.md R120, R122). -/

namespace Sys2Proof.Machine

/-- One step under an opcode map. Only a Running core has a step (R120). An illegal opcode takes fault
entry (R122, R234); every other byte runs its instruction. -/
def stepWith (opc : OpcodeMap) (s : State) : Result :=
  match s.run with
  | .running =>
    match fetchInstr opc s with
    | .error f => .next (takeFault f s.pc s)
    | .ok i => exec i s
  | .halted => .fault .stepWhileHalted
  | .faulted => .fault (.stepWhileFaulted s.fcause s.finfo)

/-- One step under the reference opcode assignment (R86, log 8). -/
def step (s : State) : Host.Outcome State Fault Refusal := stepWith Config.referenceOpc s

/-- The state with one instruction of the opcode table placed where the next step fetches (log 9). -/
def State.withFetchWord (s : State) (nbits w : Nat) : State := placeWord s nbits w

end Sys2Proof.Machine
end

