-- ==== Sys2Proof/Machine/Assembler.lean ====
section
/-! DEFINITION. The two-pass assembler (30_encoding.md §5, R100 to R111). It is a toolchain and not
hardware (00_scope.md R5); it is modelled because those rules fix the text programs are written in and
the bytes that text stands for. Source text is the list of its characters. -/

namespace Sys2Proof.Machine

/-! ### Text -/

/-- A token or a name: its characters. -/
abbrev Text := List Char

/-- Splits at every character that satisfies `p`, which is dropped. -/
def splitAtChars (p : Char → Bool) : Text → List Text
  | [] => [[]]
  | ch :: rest =>
    if p ch then [] :: splitAtChars p rest
    else
      match splitAtChars p rest with
      | [] => [[ch]]
      | w :: ws => (ch :: w) :: ws

/-- White space between tokens: space, tab and carriage return (DESIGN CHOICE, log 11). -/
def isBlank (ch : Char) : Bool := ch == ' ' || ch == '\t' || ch == '\r'

/-- The text without the blanks at its two ends (R102). -/
def trimText (t : Text) : Text := ((t.dropWhile isBlank).reverse.dropWhile isBlank).reverse

/-- Lower case, so that names and mnemonics are case-insensitive (R102, R103; log 11). -/
def lowerText (t : Text) : Text := t.map Char.toLower

/-- The lower-case tokens of a line, split on white space and commas (R103). Separators that stand
together, or at an end of the line, make no empty token (DESIGN CHOICE, log 20). -/
def tokensOf (t : Text) : List Text :=
  ((splitAtChars (fun ch => isBlank ch || ch == ',') t).filter (· ≠ [])).map lowerText

/-! ### Lines and errors -/

/-- The assembly errors (R111), with the forms the spec does not admit (R101, R102). -/
inductive AsmErrorKind where
  | notAdmitted
  | unknownMnemonic
  | unknownRegister
  | badImmediate
  | undefinedLabel
  | wrongOperandCount
  | duplicateLabel
  | imageTooLong
  deriving DecidableEq, Repr

/-- An error with its source line, counted from 1 (R111). -/
structure AsmError where
  line : Nat
  kind : AsmErrorKind
  deriving DecidableEq, Repr

/-- What a line is (R100): blank or comment, a label, or an instruction's tokens. -/
inductive Line where
  | empty
  | label (name : Text)
  | instr (tokens : List Text)
  deriving DecidableEq, Repr

/-- A label name the spec admits: no white space, comma, semicolon or colon, and not empty (R102, log 12). -/
def admittedName (name : Text) : Bool :=
  name ≠ [] && name.all fun ch => !(isBlank ch || ch == ',' || ch == ';' || ch == ':')

/-- Classifies a line by its trimmed content (R100 to R103). A semicolon that does not begin the line is
outside the admitted syntax (R101, 90_conflicts.md C7). -/
def classify (line : Text) : Except AsmErrorKind Line :=
  match trimText line with
  | [] => .ok .empty
  | ch :: rest =>
    if ch = ';' then .ok .empty
    else if (ch :: rest).contains ';' then .error .notAdmitted
    else
      match (ch :: rest).reverse with
      | ':' :: name =>
        let label := lowerText name.reverse
        if admittedName label then .ok (.label label) else .error .notAdmitted
      | _ => .ok (.instr (tokensOf (ch :: rest)))

/-! ### Mnemonics and operands -/

/-- The twelve mnemonics the assembler accepts (R108). -/
inductive AsmOp where
  | mov | add | sub | cmp | mul | div | jmp | jz | jnz | call | ret | hlt
  deriving DecidableEq, Repr

/-- The mnemonic a token names (R108). -/
def AsmOp.ofToken (t : Text) : Option AsmOp :=
  if t = ['m', 'o', 'v'] then some .mov
  else if t = ['a', 'd', 'd'] then some .add
  else if t = ['s', 'u', 'b'] then some .sub
  else if t = ['c', 'm', 'p'] then some .cmp
  else if t = ['m', 'u', 'l'] then some .mul
  else if t = ['d', 'i', 'v'] then some .div
  else if t = ['j', 'm', 'p'] then some .jmp
  else if t = ['j', 'z'] then some .jz
  else if t = ['j', 'n', 'z'] then some .jnz
  else if t = ['c', 'a', 'l', 'l'] then some .call
  else if t = ['r', 'e', 't'] then some .ret
  else if t = ['h', 'l', 't'] then some .hlt
  else none

/-- The bytes pass 1 counts for a mnemonic (R110). -/
def AsmOp.size : AsmOp → Nat
  | .mov => 3
  | .add => 3
  | .sub => 3
  | .cmp => 3
  | .mul => 3
  | .div => 3
  | .jmp => 3
  | .jz => 3
  | .jnz => 3
  | .call => 3
  | .ret => 1
  | .hlt => 1

/-- The operands a mnemonic takes (R109). -/
def AsmOp.arity : AsmOp → Nat
  | .mov => 2
  | .add => 2
  | .sub => 2
  | .cmp => 2
  | .mul => 2
  | .div => 2
  | .jmp => 1
  | .jz => 1
  | .jnz => 1
  | .call => 1
  | .ret => 0
  | .hlt => 0

/-- A register operand `a` to `d` (R104). -/
def registerOf (t : Text) : Option Byte :=
  if t = ['a'] then some 0
  else if t = ['b'] then some 1
  else if t = ['c'] then some 2
  else if t = ['d'] then some 3
  else none

/-- One or more decimal digits and nothing else (R104, R106). -/
def allDigits (t : Text) : Bool := t ≠ [] && t.all Char.isDigit

/-- The value of a string of decimal digits. -/
def decimalValue (t : Text) : Nat := t.foldl (fun n ch => n * 10 + (ch.toNat - 48)) 0

/-- An immediate operand: decimal digits with a value of at most 255; leading zeros are accepted (R104, D21). -/
def immediateOf (t : Text) : Option Byte :=
  if allDigits t && decide (decimalValue t ≤ 255) then some (BitVec.ofNat 8 (decimalValue t)) else none

/-- The symbol table: label names with their addresses (R110). -/
abbrev SymTab := List (Text × Nat)

/-- The address a label stands for, as a 16-bit target (R105, R107; log 14). -/
def targetOf (st : SymTab) (t : Text) : Except AsmErrorKind Addr :=
  match st.lookup t with
  | none => .error .undefinedLabel
  | some a => .ok (BitVec.ofNat 16 a)

/-- A first operand, which is always a register (R105). -/
def needRegister (t : Text) : Except AsmErrorKind Byte :=
  match registerOf t with
  | none => .error .unknownRegister
  | some r => .ok r

/-- The form of `mov`, `add` and `sub` by their second operand: a register name, else a literal (R106). -/
def formByName (rr ri : Byte → Byte → Instr) (d : Byte) (t : Text) : Except AsmErrorKind Instr :=
  match registerOf t with
  | some s => .ok (rr d s)
  | none =>
    match immediateOf t with
    | some n => .ok (ri d n)
    | none => .error .badImmediate

/-- The form of `cmp` by its second operand: all digits, else a register name (R106). -/
def formByDigits (rr ri : Byte → Byte → Instr) (d : Byte) (t : Text) : Except AsmErrorKind Instr :=
  if allDigits t then
    match immediateOf t with
    | some n => .ok (ri d n)
    | none => .error .badImmediate
  else
    match registerOf t with
    | some s => .ok (rr d s)
    | none => .error .unknownRegister

/-- `mul` and `div`, which have the register form only (R105). -/
def formRegisters (rr : Byte → Byte → Instr) (d : Byte) (t : Text) : Except AsmErrorKind Instr :=
  match registerOf t with
  | some s => .ok (rr d s)
  | none => .error .unknownRegister

/-- A two-operand line: the operand count, then the first operand, then the form, and the first that is
wrong is reported (DESIGN CHOICE, log 13). -/
def twoOperands (args : List Text) (form : Byte → Text → Except AsmErrorKind Instr) :
    Except AsmErrorKind Instr :=
  match args with
  | [r, t] =>
    match needRegister r with
    | .error k => .error k
    | .ok d => form d t
  | _ => .error .wrongOperandCount

/-- A one-operand line: a label name, never a number (R107). -/
def oneLabel (st : SymTab) (args : List Text) (mk : Addr → Instr) : Except AsmErrorKind Instr :=
  match args with
  | [t] =>
    match targetOf st t with
    | .error k => .error k
    | .ok a => .ok (mk a)
  | _ => .error .wrongOperandCount

/-- A line without operands. -/
def noOperands (args : List Text) (i : Instr) : Except AsmErrorKind Instr :=
  match args with
  | [] => .ok i
  | _ => .error .wrongOperandCount

/-- The instruction an instruction line stands for (R105, R106, R109). -/
def parseInstr (st : SymTab) (op : AsmOp) (args : List Text) : Except AsmErrorKind Instr :=
  match op with
  | .mov => twoOperands args (formByName .movRR .movRI)
  | .add => twoOperands args (formByName .addRR .addRI)
  | .sub => twoOperands args (formByName .subRR .subRI)
  | .cmp => twoOperands args (formByDigits .cmpRR .cmpRI)
  | .mul => twoOperands args (formRegisters .mul)
  | .div => twoOperands args (formRegisters .div)
  | .jmp => oneLabel st args .jmp
  | .jz => oneLabel st args .jz
  | .jnz => oneLabel st args .jnz
  | .call => oneLabel st args .call
  | .ret => noOperands args .ret
  | .hlt => noOperands args .hlt

/-! ### The two passes -/

/-- An instruction line after pass 1: its source line, the address pass 1 gave it, and its text. -/
structure Item where
  line : Nat
  addr : Nat
  op : AsmOp
  args : List Text
  deriving DecidableEq, Repr

/-- Pass 1 (R110): walks the lines from source line `n` and address `a`, with the labels met so far. A line
of commas alone has no first token; it is reported as an unknown mnemonic (DESIGN CHOICE, log 21). A label
defined twice is reported at the line of its second definition (DESIGN CHOICE, log 22), and an image over
65536 bytes at the line that passes the limit (DESIGN CHOICE, log 13). -/
def pass1 (n a : Nat) (st : SymTab) : List Text → Except AsmError (List Item × SymTab)
  | [] => .ok ([], st)
  | l :: rest =>
    match classify l with
    | .error k => .error ⟨n, k⟩
    | .ok .empty => pass1 (n + 1) a st rest
    | .ok (.label name) =>
      match st.lookup name with
      | some _ => .error ⟨n, .duplicateLabel⟩
      | none => pass1 (n + 1) a (st ++ [(name, a)]) rest
    | .ok (.instr []) => .error ⟨n, .unknownMnemonic⟩
    | .ok (.instr (t :: args)) =>
      match AsmOp.ofToken t with
      | none => .error ⟨n, .unknownMnemonic⟩
      | some op =>
        if a + op.size > 65536 then .error ⟨n, .imageTooLong⟩
        else
          match pass1 (n + 1) (a + op.size) st rest with
          | .error e => .error e
          | .ok (items, table) => .ok (⟨n, a, op, args⟩ :: items, table)

/-- Pass 2 (R110): the instruction of every item, with the address pass 1 gave it, in source order. -/
def pass2 (st : SymTab) : List Item → Except AsmError (List (Nat × Instr))
  | [] => .ok []
  | item :: rest =>
    match parseInstr st item.op item.args with
    | .error k => .error ⟨item.line, k⟩
    | .ok i =>
      match pass2 st rest with
      | .error e => .error e
      | .ok more => .ok ((item.addr, i) :: more)

/-- A program the assembler accepts: its labels, its instructions with their addresses, and the image. -/
structure Program where
  symbols : SymTab
  code : List (Nat × Instr)
  image : List Byte
  deriving DecidableEq, Repr

/-- The bytes of consecutive instructions (R110). -/
def emitWith (opc : OpcodeMap) : List (Nat × Instr) → List Byte
  | [] => []
  | (_, i) :: rest => encodeWith opc i ++ emitWith opc rest

/-- Assembles a source text (R100 to R111); on an error no image is produced. -/
def assembleWith (opc : OpcodeMap) (source : Text) : Except AsmError Program :=
  match pass1 1 0 [] (splitAtChars (· == '\n') source) with
  | .error e => .error e
  | .ok (items, table) =>
    match pass2 table items with
    | .error e => .error e
    | .ok code => .ok ⟨table, code, emitWith opc code⟩

/-- Reads bytes as consecutive instructions, at most `fuel` of them; none when they are not. -/
def disassembleWith (opc : OpcodeMap) : Nat → List Byte → Option (List Instr)
  | _, [] => some []
  | 0, _ :: _ => none
  | fuel + 1, b :: rest =>
    match decodeWith opc (b :: rest) with
    | .error _ => none
    | .ok (i, tail) => (disassembleWith opc fuel tail).map (i :: ·)

end Sys2Proof.Machine
end

