-- ==== Sys2Proof/Machine/Bus.lean ====
section
/-! DEFINITION. The accesses of one step as a bus would show them, in order (20_memory.md R51, R55, R67).
The list is computed from the state before the step; it is not state (R34). -/

namespace Sys2Proof.Machine

/-- One single-byte access of the memory port (R52). -/
inductive Access where
  | read (a : Addr)
  | write (a : Addr) (v : Byte)
  deriving DecidableEq, Repr

/-- The reads of the first `n` instruction bytes, in increasing address order (R55). -/
def fetchAccesses (start : Addr) (n : Nat) : List Access :=
  (List.range n).map fun k => .read (start + BitVec.ofNat 16 k)

/-- The accesses after the fetches: RET reads its two stack bytes, low byte first; CALL writes the return
address, high byte first; no other instruction has any (R51, R67). -/
def dataAccesses (i : Instr) (s : State) : List Access :=
  match i with
  | .call _ =>
    let ret := s.pc + 3
    [.write (s.sp - 1) (hiByte ret), .write (s.sp - 2) (loByte ret)]
  | .ret => [.read s.sp, .read (s.sp + 1)]
  | .movRR _ _ => []
  | .movRI _ _ => []
  | .addRR _ _ => []
  | .addRI _ _ => []
  | .subRR _ _ => []
  | .subRI _ _ => []
  | .cmpRR _ _ => []
  | .cmpRI _ _ => []
  | .mul _ _ => []
  | .div _ _ => []
  | .jmp _ => []
  | .jz _ => []
  | .jnz _ => []
  | .hlt => []

/-- Every access of the next step, in order (R67). A core that is not Running makes none (R120, R221); an
illegal opcode is one read; a faulting 3-byte instruction has read its three bytes. -/
def busWith (opc : OpcodeMap) (s : State) : List Access :=
  match s.run with
  | .running =>
    match fetchInstr opc s with
    | .error _ => fetchAccesses s.pc 1
    | .ok i => fetchAccesses s.pc i.length ++ dataAccesses i s
  | .halted => []
  | .faulted => []

/-- What the writes of an access list leave in memory, in order (R62). -/
def replay (m : Memory) : List Access → Memory
  | [] => m
  | .read _ :: rest => replay m rest
  | .write a v :: rest => replay (m.write a v) rest

end Sys2Proof.Machine
end

