-- ==== Sys2Proof/Machine/HostPort.lean ====
section
/-! DEFINITION. The core's interface to its host (60_exceptions.md R244 to R247): the operations, when
each is allowed, the boot order (70_reset_and_hazards.md R263) and the end of a run. -/

namespace Sys2Proof.Machine

/-- The core as its host holds it. `started` says that a step has run since the last reset, or since
power-on; R244 lets the host write memory only before that (log 10). -/
structure Session where
  core : State
  started : Bool
  deriving DecidableEq, Repr

/-- The operations of R244. -/
inductive HostOp where
  /-- `reset(sp_init)`, with the values a reset leaves open (R260). -/
  | reset (v : ResetValues)
  /-- `mem_write(addr, byte)`. -/
  | memWrite (a : Addr) (v : Byte)
  /-- `mem_read(addr)`. -/
  | memRead (a : Addr)
  /-- `step()`. -/
  | step
  /-- `status()`. -/
  | status
  /-- `regs()`. -/
  | regs
  deriving DecidableEq, Repr

/-- What an operation returns to the host (R244). -/
inductive HostReply where
  | done
  | byte (v : Byte)
  | status (run : RunState) (fcause finfo : Byte)
  | regs (x : RegFile) (z c : Bool) (pc sp : Addr)
  deriving DecidableEq, Repr

/-- Why the host has no such move (R245; 93_implementation_defined.md U1, U13). -/
inductive HostRefusal where
  /-- A memory write after the first step of a run. Safe: such a run is outside the spec. -/
  | writeDuringRun
  /-- A step of a core that is not Running. Safe: such a step does not exist. -/
  | stepNotRunning
  deriving DecidableEq, Repr

/-- One host operation between steps (R244). -/
def hostWith (opc : OpcodeMap) (op : HostOp) (h : Session) : Except HostRefusal (Session × HostReply) :=
  match op with
  | .reset v => .ok (⟨h.core.resetBy v, false⟩, .done)
  | .memWrite a v =>
    if h.started then .error .writeDuringRun else .ok (⟨h.core.store a v, false⟩, .done)
  | .memRead a => .ok (h, .byte (h.core.load a))
  | .step =>
    match stepWith opc h.core with
    | .next t => .ok (⟨t, true⟩, .done)
    | .fault _ => .error .stepNotRunning
    | .refused _ => .error .stepNotRunning
  | .status => .ok (h, .status h.core.run h.core.fcause h.core.finfo)
  | .regs => .ok (h, .regs h.core.regs h.core.z h.core.c h.core.pc h.core.sp)

/-- Several host operations in order; the first that is not allowed ends them. -/
def hostAllWith (opc : OpcodeMap) : List HostOp → Session → Except HostRefusal Session
  | [], h => .ok h
  | op :: rest, h =>
    match hostWith opc op h with
    | .error e => .error e
    | .ok (h', _) => hostAllWith opc rest h'

/-- The image load: its bytes at consecutive addresses (R244, R59). -/
def loadOps (a : Addr) : List Byte → List HostOp
  | [] => []
  | v :: rest => .memWrite a v :: loadOps (a + 1) rest

/-- The boot order of R263: the image at address 0, then the reset. -/
def bootOps (image : List Byte) (v : ResetValues) : List HostOp := loadOps 0 image ++ [.reset v]

/-- How a run stands (R247). A run the host cuts short stays `cutShort`: nothing is said of it (R246). -/
inductive RunEnd where
  | cutShort
  | normal
  | inFault (cause info : Byte)
  deriving DecidableEq, Repr

/-- The end of a run, read from the run state and the fault status (R126, R247). -/
def runEnd (s : State) : RunEnd :=
  match s.run with
  | .running => .cutShort
  | .halted => .normal
  | .faulted => .inFault s.fcause s.finfo

/-- `n` steps in a row; the answer of the first that has no next state. -/
def runWith (opc : OpcodeMap) : Nat → State → Result
  | 0, s => .next s
  | n + 1, s =>
    match stepWith opc s with
    | .next t => runWith opc n t
    | .fault f => .fault f
    | .refused r => .refused r

/-- The host's loop with its own step limit: it steps while the core is Running (R246, R263). -/
def hostLoop (opc : OpcodeMap) : Nat → State → State
  | 0, s => s
  | n + 1, s =>
    match stepWith opc s with
    | .next t => hostLoop opc n t
    | .fault _ => s
    | .refused _ => s

end Sys2Proof.Machine
end

