-- ==== Sys2Proof/Safety.lean ====
section
/-! DEFINITION. What counts as a safe run of KX8. Registers and flags hold a value at reset here, so no
step of the machine stops at one that nothing has written (log 5). The step the spec asks of a model
raises the fault UninitRead there, and gives every fault as a result of its own (00_scope.md R13,
60_exceptions.md R233, 40_dispatch.md R129). This file holds that step,
`specStepWith`, over the machine's step and a record of what has been written since reset. It also holds
the machine's invariant and the stack condition of 70_reset_and_hazards.md R264. -/

namespace Sys2Proof.Safety

open Sys2Proof.Machine

/-! ### What has been written since reset -/

/-- The state whose reset value the spec leaves open: a general register or a flag (R35). -/
inductive Loc where
  | reg (r : Reg)
  | z
  | c
  deriving DecidableEq, Repr

/-- Which of A to D, Z and C an instruction has written since reset (R13). -/
structure Marks where
  a : Bool
  b : Bool
  c : Bool
  d : Bool
  zero : Bool
  carry : Bool
  deriving DecidableEq, Repr

/-- After reset everything is unwritten (R260). -/
def Marks.reset : Marks := ⟨false, false, false, false, false, false⟩

/-- Whether a location has been written since reset. -/
def Marks.has (m : Marks) : Loc → Bool
  | .reg .a => m.a
  | .reg .b => m.b
  | .reg .c => m.c
  | .reg .d => m.d
  | .z => m.zero
  | .c => m.carry

/-- Marks a location as written. -/
def Marks.add (m : Marks) : Loc → Marks
  | .reg .a => { m with a := true }
  | .reg .b => { m with b := true }
  | .reg .c => { m with c := true }
  | .reg .d => { m with d := true }
  | .z => { m with zero := true }
  | .c => { m with carry := true }

/-- Marks several locations as written. -/
def Marks.addAll (m : Marks) : List Loc → Marks
  | [] => m
  | l :: rest => Marks.addAll (m.add l) rest

/-! ### What an instruction reads and writes -/

/-- Applies `f` to the registers of a register pair; nothing is read or written when an index is illegal,
because IllegalRegister comes first (R235). -/
def onRR (b1 b2 : Byte) (f : Reg → Reg → List Loc) : List Loc :=
  match operandsRR b1 b2 with
  | .error _ => []
  | .ok (dst, src) => f dst src

/-- Applies `f` to the register of a register-immediate form (R235). -/
def onRI (b1 b2 : Byte) (f : Reg → List Loc) : List Loc :=
  match operandsRI b1 b2 with
  | .error _ => []
  | .ok (dst, _) => f dst

/-- The registers and flags an instruction reads, in the order its rule reads them (R22, R28, R29, R235). -/
def reads : Instr → List Loc
  | .movRR rd rs => onRR rd rs fun _ src => [.reg src]
  | .movRI _ _ => []
  | .addRR rd rs => onRR rd rs fun dst src => [.reg dst, .reg src]
  | .addRI rd imm => onRI rd imm fun dst => [.reg dst]
  | .subRR rd rs => onRR rd rs fun dst src => [.reg dst, .reg src]
  | .subRI rd imm => onRI rd imm fun dst => [.reg dst]
  | .cmpRR rd rs => onRR rd rs fun dst src => [.reg dst, .reg src]
  | .cmpRI rd imm => onRI rd imm fun dst => [.reg dst]
  | .mul rd rs => onRR rd rs fun dst src => [.reg dst, .reg src]
  | .div rd rs => onRR rd rs fun dst src => [.reg dst, .reg src]
  | .jmp _ => []
  | .jz _ => [.z]
  | .jnz _ => [.z]
  | .call _ => []
  | .ret => []
  | .hlt => []

/-- The registers and flags an instruction writes when it does not fault (R22, R28, R29, R30). -/
def writes : Instr → List Loc
  | .movRR rd rs => onRR rd rs fun dst _ => [.reg dst, .z]
  | .movRI rd imm => onRI rd imm fun dst => [.reg dst, .z]
  | .addRR rd rs => onRR rd rs fun dst _ => [.reg dst, .z, .c]
  | .addRI rd imm => onRI rd imm fun dst => [.reg dst, .z, .c]
  | .subRR rd rs => onRR rd rs fun dst _ => [.reg dst, .z, .c]
  | .subRI rd imm => onRI rd imm fun dst => [.reg dst, .z, .c]
  | .cmpRR rd rs => onRR rd rs fun _ _ => [.z, .c]
  | .cmpRI rd imm => onRI rd imm fun _ => [.z, .c]
  | .mul rd rs => onRR rd rs fun dst _ => [.reg dst, .z, .c]
  | .div rd rs => onRR rd rs fun dst _ => [.reg dst, .z]
  | .jmp _ => []
  | .jz _ => []
  | .jnz _ => []
  | .call _ => []
  | .ret => []
  | .hlt => []

/-- The first location the instruction reads that nothing has written since reset (R233, R235). -/
def uninitRead (m : Marks) (i : Instr) : Option Loc := (reads i).find? fun l => !m.has l

/-- The marks after an instruction that took no fault. A faulting instruction leaves them as they were
(R234, log 19). -/
def Marks.after (m : Marks) (i : Instr) : Marks := m.addAll (writes i)

/-! ### The spec's own step -/

/-- The faults of the spec's model step (R129). Each is raised by `specStepWith` alone. -/
inductive SpecFault where
  /-- The step ended in Faulted (R126), with its cause, the state that fault entry leaves for the host
  (R234) and the marks. Safe: the state is the one the spec gives. -/
  | execution (cause : HwFault) (final : State) (marks : Marks)
  /-- UninitRead (R13, R233): the step read a location that nothing has written since reset. Safe: nothing
  follows from the value read. -/
  | uninitRead (l : Loc)
  /-- A step asked of a core that is not Running, which has none (R120). Safe: the step does not exist
  (log 7). -/
  | noStep (f : Fault)
  deriving DecidableEq, Repr

/-- The three results of the spec's model step (R129): the next state, with the marks; a fault, which
carries its cause; or a refusal. -/
abbrev SpecOutcome := Host.Outcome (State × Marks) SpecFault Refusal

/-- The result of a step whose instruction left the state `t` (R126, R129): a fault with its cause when
that state is Faulted, else the next state. -/
def specResult (m : Marks) (i : Instr) (t : State) : SpecOutcome :=
  match t.recordedFault with
  | some f => .fault (.execution f t m)
  | none => .next (t, m.after i)

/-- The spec's model step (R129): the machine's step with every fault a result of its own, and with
UninitRead where R233 raises it. Its place in the order of R235 is after IllegalOpcode and
IllegalRegister and before DivideByZero. -/
def specStepWith (opc : OpcodeMap) (s : State) (m : Marks) : SpecOutcome :=
  match s.run with
  | .running =>
    match fetchInstr opc s with
    | .error f => .fault (.execution f (takeFault f s.pc s) m)
    | .ok i =>
      match uninitRead m i with
      | some l => .fault (.uninitRead l)
      | none =>
        match exec i s with
        | .next t => specResult m i t
        | .fault f => .fault (.noStep f)
        | .refused r => .refused r
  | .halted => .fault (.noStep .stepWhileHalted)
  | .faulted => .fault (.noStep (.stepWhileFaulted s.fcause s.finfo))

/-- `n` steps of the spec's model; the result of the first that has no next state. -/
def specRunWith (opc : OpcodeMap) : Nat → State → Marks → SpecOutcome
  | 0, s, m => .next (s, m)
  | n + 1, s, m =>
    match specStepWith opc s m with
    | .next (t, m') => specRunWith opc n t m'
    | .fault f => .fault f
    | .refused r => .refused r

/-- The value of a location, flags as bytes, for comparing two states. -/
def valueAt (s : State) : Loc → Byte
  | .reg r => s.reg r
  | .z => if s.z then 1 else 0
  | .c => if s.c then 1 else 0

/-- Two states that may differ only in what has not been written since reset. -/
def SameWritten (m : Marks) (s t : State) : Prop :=
  s.pc = t.pc ∧ s.sp = t.sp ∧ s.run = t.run ∧ s.fcause = t.fcause ∧ s.finfo = t.finfo ∧ s.mem = t.mem ∧
    ∀ l, m.has l = true → valueAt s l = valueAt t l

/-! ### The invariant of the machine -/

/-- The fault status agrees with the run state, and records a value its fault can have (R31, R32, R231). -/
def faultStatusOk (opc : OpcodeMap) (s : State) : Bool :=
  match s.run with
  | .running => s.fcause == 0 && s.finfo == 0
  | .halted => s.fcause == 0 && s.finfo == 0
  | .faulted =>
    (s.fcause == 1 && (opc.lookup s.finfo).isNone)
      || (s.fcause == 2 && !legalIndex s.finfo)
      || (s.fcause == 3 && legalIndex s.finfo)

/-- What every state of a run satisfies: memory in canonical form and an honest fault status. -/
def invWith (opc : OpcodeMap) (s : State) : Bool := s.mem.wf && faultStatusOk opc s

/-! ### What an instruction leaves unchanged -/

/-- Every byte of memory reads as before. -/
def SameBytes (s t : State) : Prop := ∀ a, t.load a = s.load a

/-- Every general register but one reads as before. -/
def SameRegsBut (dst : Reg) (s t : State) : Prop := ∀ r, r ≠ dst → t.reg r = s.reg r

/-- Every general register reads as before. -/
def SameRegs (s t : State) : Prop := ∀ r, t.reg r = s.reg r

/-- The run state and the fault status are as before. -/
def SameStatus (s t : State) : Prop := t.run = s.run ∧ t.fcause = s.fcause ∧ t.finfo = s.finfo

/-! ### The stack and the image -/

/-- The addresses the stack occupies at call depth `k` (R264): `SP_INIT - 2k` to `SP_INIT - 1`, mod 65536. -/
def stackArea (spInit : Addr) (k : Nat) : List Addr :=
  (List.range (2 * k)).map fun j => spInit - BitVec.ofNat 16 (j + 1)

/-- The stack at depth `k` touches no byte of an image of `n` bytes (R264). -/
def stackClear (spInit : Addr) (k n : Nat) : Bool := (stackArea spInit k).all fun a => decide (n ≤ a.toNat)

/-- A state from which the spec's model runs `n` steps, or to its HLT, without any fault (R129, R264). -/
def safeFor (opc : OpcodeMap) : Nat → State → Marks → Bool
  | 0, _, _ => true
  | n + 1, s, m =>
    match specStepWith opc s m with
    | .next (t, m') => decide (t.run = .halted) || safeFor opc n t m'
    | .fault _ => false
    | .refused _ => false

end Sys2Proof.Safety
end

