-- ==== Sys2Proof/Certificates/Slice0/Obligations.lean ====
section
/-! DEFINITION. The statements about KX8 for the provers. Each says which part of spec/ it formalises. A
statement about `exec` is entered with the PC at the opcode byte (log 17). A result statement concludes
that the instruction answers a next state and says what that state holds, its frame with it. -/

open Sys2Proof Sys2Proof.Machine Sys2Proof.Safety

/-! ### Encoding -/

/-- 30_encoding.md §1 to §3: under every opcode map, every instruction is read back from its own bytes,
whatever follows them. -/
def Obligations.DecodeInvertsEncode : Prop :=
  ∀ (opc : OpcodeMap) (i : Instr) (rest : List Byte),
    decodeWith opc (encodeWith opc i ++ rest) = .ok (i, rest)

/-- 30_encoding.md §1 to §3: the bytes an instruction was read from are its own bytes, so no bit of a
legal encoding is dropped and no instruction has two encodings. -/
def Obligations.EncodeInvertsDecode : Prop :=
  ∀ (opc : OpcodeMap) (bytes : List Byte) (i : Instr) (rest : List Byte),
    decodeWith opc bytes = .ok (i, rest) → bytes = encodeWith opc i ++ rest

/-- R88: a step that fetches a byte outside the image of `OPC` takes IllegalOpcode (code 1) with that
byte, and a byte inside it is decoded. Under the reference assignment the illegal bytes are 0x00 and 0x11 to 0xFF,
240 in all. The spec marks this as its own inference: "[derived: from rule R86]". The fault is answered as
a next state (log 6). -/
def Obligations.UnmappedOpcodesRaiseIllegalOpcode : Prop :=
  (∀ (opc : OpcodeMap) (s : State), s.run = .running → (∀ m, opc.code m ≠ s.load s.pc) →
    stepWith opc s = .next { s with run := .faulted, fcause := 1, finfo := s.load s.pc }) ∧
  (∀ (opc : OpcodeMap) (s : State) (m : Mnemonic), opc.code m = s.load s.pc →
    ∃ i, fetchInstr opc s = .ok i ∧ i.mnemonic = m) ∧
  (∀ b : Byte, (∀ m, Config.referenceOpc.code m ≠ b) ↔ b.toNat = 0x00 ∨ 0x11 ≤ b.toNat) ∧
  ((List.range 256).filter fun n => (Config.referenceOpc.lookup (BitVec.ofNat 8 n)).isNone).length = 240

/-- 30_encoding.md §3: one word of every family, written out from the formats under the reference
assignment, decodes to the instruction it stands for. -/
def Obligations.ReferenceWordsDecode : Prop :=
  decode [0x01, 0x00, 0x01] = .ok (.movRR 0 1, []) ∧
  decode [0x02, 0x03, 0xFF] = .ok (.movRI 3 255, []) ∧
  decode [0x06, 0x02, 0x01] = .ok (.subRI 2 1, []) ∧
  decode [0x0A, 0x00, 0x01] = .ok (.div 0 1, []) ∧
  decode [0x0B, 0x34, 0x12] = .ok (.jmp 0x1234, []) ∧
  decode [0x0E, 0x40, 0x00, 0x0F] = .ok (.call 0x0040, [0x0F]) ∧
  decode [0x0F, 0x10] = .ok (.ret, [0x10]) ∧
  decode [0x10] = .ok (.hlt, [])

/-! ### The step -/

/-- 40_dispatch.md §1: when the three bytes from the PC up begin with the instruction `i`, the step of a
Running core is `exec i` of the same state; `exec` itself moves the PC. -/
def Obligations.StepRunsTheDecodedInstruction : Prop :=
  (∀ (opc : OpcodeMap) (s : State) (i : Instr) (rest : List Byte), s.run = .running →
    decodeWith opc [s.load s.pc, s.load (s.pc + 1), s.load (s.pc + 2)] = .ok (i, rest) →
    stepWith opc s = exec i s) ∧
  (∀ (s : State) (i : Instr) (rest : List Byte), s.run = .running →
    decode [s.load s.pc, s.load (s.pc + 1), s.load (s.pc + 2)] = .ok (i, rest) → step s = exec i s)

/-- R24: the PC wraps modulo 65536; a fetch at 0xFFFF leaves 0x0000; the operands of an instruction at
0xFFFE are the bytes at 0xFFFF and 0x0000; no fault is raised. -/
def Obligations.FetchWrapsAtTopOfMemory : Prop :=
  (∀ s : State, s.fetch8.2.pc.toNat = (s.pc.toNat + 1) % 65536) ∧
  (∀ (s : State) (n : Nat), (s.advance n).pc.toNat = (s.pc.toNat + n) % 65536) ∧
  (∀ s : State, s.pc = 0xFFFF → s.fetch8.2.pc = 0x0000) ∧
  (∀ (opc : OpcodeMap) (s : State) (m : Mnemonic), s.run = .running → s.pc = 0xFFFE →
    opc.code m = s.load 0xFFFE →
    fetchInstr opc s = .ok (Instr.ofOperands m (s.load 0xFFFF) (s.load 0x0000)) ∧
      stepWith opc s = exec (Instr.ofOperands m (s.load 0xFFFF) (s.load 0x0000)) s)

/-- 40_dispatch.md §1, 44_halt.md, 60_exceptions.md §1: a core has a step exactly when it is Running; a
Halted or Faulted one makes no memory access. That the model stops there is its own reading (log 7). -/
def Obligations.OnlyARunningCoreHasAStep : Prop :=
  ∀ (opc : OpcodeMap) (s : State),
    ((∃ t, stepWith opc s = .next t) ↔ s.run = .running) ∧ (s.run ≠ .running → busWith opc s = [])

/-- The model's own `withFetchWord` (log 9): the next step runs the instruction the word decodes to, and
no register, flag or status but the run state is touched. -/
def Obligations.PlacedWordRunsNext : Prop :=
  ∀ (s : State) (nbits w : Nat) (i : Instr), decodeTableWord nbits w = some i →
    step (s.withFetchWord nbits w) = exec i (s.withFetchWord nbits w) ∧
      s.withFetchWord nbits w =
        { s with run := .running, mem := s.mem.writeBytes s.pc (tableBytes nbits w) }

/-! ### Registers and memory -/

/-- R20: index 0 is A, 1 is B, 2 is C and 3 is D; a register holds what was written, and a write to one
changes no other. -/
def Obligations.RegistersAreIndependentBytes : Prop :=
  (regidx 0 = .ok .a ∧ regidx 1 = .ok .b ∧ regidx 2 = .ok .c ∧ regidx 3 = .ok .d) ∧
  (∀ s : State, s.reg .a = s.regs.a ∧ s.reg .b = s.regs.b ∧ s.reg .c = s.regs.c ∧ s.reg .d = s.regs.d) ∧
  (∀ (s : State) (r : Reg) (v : Byte),
    (s.setReg r v).reg r = v ∧ ∀ r', r' ≠ r → (s.setReg r v).reg r' = s.reg r')

/-- R124: a byte up to 3 is a register index; any other raises IllegalRegister with the byte. -/
def Obligations.RegisterIndexAboveThreeIsIllegal : Prop :=
  (∀ b : Byte, b.toNat ≤ 3 → ∃ r, regidx b = .ok r ∧ r.index = b) ∧
  (∀ b : Byte, 3 < b.toNat → regidx b = .error (.illegalRegister b))

/-- 20_memory.md §1: memory in canonical form is its bytes: two memories that read alike at every address
are the same list. The list and its fill byte are the model's own choice (log 4). -/
def Obligations.MemoriesThatReadAlikeAreEqual : Prop :=
  ∀ m n : Memory, m.wf = true → n.wf = true → (∀ a : Addr, m.read a = n.read a) → m = n

/-! ### MOV -/

/-- 41_move.md, MOV_RR: the destination takes the source, `Z` tells whether it is 0, `C` is kept. -/
def Obligations.MovRegisterCopiesAndTestsZero : Prop :=
  ∀ (dst src : Reg) (s : State), ∃ t, exec (.movRR dst.index src.index) s = .next t ∧
    t.reg dst = s.reg src ∧ (t.z = true ↔ s.reg src = 0) ∧ t.c = s.c ∧ t.pc = s.pc + 3 ∧ t.sp = s.sp ∧
    SameRegsBut dst s t ∧ SameStatus s t ∧ SameBytes s t

/-- 41_move.md, MOV_RI: the destination takes the immediate as it stands, `C` is kept. -/
def Obligations.MovImmediateLoadsAndTestsZero : Prop :=
  ∀ (dst : Reg) (imm : Byte) (s : State), ∃ t, exec (.movRI dst.index imm) s = .next t ∧
    t.reg dst = imm ∧ (t.z = true ↔ imm = 0) ∧ t.c = s.c ∧ t.pc = s.pc + 3 ∧ t.sp = s.sp ∧
    SameRegsBut dst s t ∧ SameStatus s t ∧ SameBytes s t

/-! ### Arithmetic and compare -/

/-- 42_arith.md §1 and §2, ADD_RR: the sum mod 256; `C` when the exact sum exceeds 255. -/
def Obligations.AddRegisterSumsModulo256 : Prop :=
  ∀ (dst src : Reg) (s : State), ∃ t, exec (.addRR dst.index src.index) s = .next t ∧
    (t.reg dst).toNat = ((s.reg dst).toNat + (s.reg src).toNat) % 256 ∧
    (t.z = true ↔ ((s.reg dst).toNat + (s.reg src).toNat) % 256 = 0) ∧
    (t.c = true ↔ (s.reg dst).toNat + (s.reg src).toNat > 255) ∧ t.pc = s.pc + 3 ∧ t.sp = s.sp ∧
    SameRegsBut dst s t ∧ SameStatus s t ∧ SameBytes s t

/-- 42_arith.md §1 and §2, ADD_RI: the sum with the immediate mod 256. -/
def Obligations.AddImmediateSumsModulo256 : Prop :=
  ∀ (dst : Reg) (imm : Byte) (s : State), ∃ t, exec (.addRI dst.index imm) s = .next t ∧
    (t.reg dst).toNat = ((s.reg dst).toNat + imm.toNat) % 256 ∧
    (t.z = true ↔ ((s.reg dst).toNat + imm.toNat) % 256 = 0) ∧
    (t.c = true ↔ (s.reg dst).toNat + imm.toNat > 255) ∧ t.pc = s.pc + 3 ∧ t.sp = s.sp ∧
    SameRegsBut dst s t ∧ SameStatus s t ∧ SameBytes s t

/-- 42_arith.md §1 and §3, SUB_RR: the integer difference mod 256; `C` on borrow; `Z` when the operands
are equal. -/
def Obligations.SubRegisterDiffersModulo256 : Prop :=
  ∀ (dst src : Reg) (s : State), ∃ t, exec (.subRR dst.index src.index) s = .next t ∧
    ((t.reg dst).toNat : Int) = (((s.reg dst).toNat : Int) - (s.reg src).toNat) % 256 ∧
    (t.z = true ↔ s.reg dst = s.reg src) ∧
    (t.c = true ↔ (s.reg dst).toNat < (s.reg src).toNat) ∧ t.pc = s.pc + 3 ∧ t.sp = s.sp ∧
    SameRegsBut dst s t ∧ SameStatus s t ∧ SameBytes s t

/-- 42_arith.md §1 and §3, SUB_RI: the difference with the immediate. -/
def Obligations.SubImmediateDiffersModulo256 : Prop :=
  ∀ (dst : Reg) (imm : Byte) (s : State), ∃ t, exec (.subRI dst.index imm) s = .next t ∧
    ((t.reg dst).toNat : Int) = (((s.reg dst).toNat : Int) - imm.toNat) % 256 ∧
    (t.z = true ↔ s.reg dst = imm) ∧
    (t.c = true ↔ (s.reg dst).toNat < imm.toNat) ∧ t.pc = s.pc + 3 ∧ t.sp = s.sp ∧
    SameRegsBut dst s t ∧ SameStatus s t ∧ SameBytes s t

/-- 42_arith.md §1 and §4, CMP_RR: the flags of SUB, and no register written. -/
def Obligations.CompareRegistersSetsFlagsOnly : Prop :=
  ∀ (dst src : Reg) (s : State), ∃ t, exec (.cmpRR dst.index src.index) s = .next t ∧
    (t.z = true ↔ s.reg dst = s.reg src) ∧
    (t.c = true ↔ (s.reg dst).toNat < (s.reg src).toNat) ∧ t.pc = s.pc + 3 ∧ t.sp = s.sp ∧
    SameRegs s t ∧ SameStatus s t ∧ SameBytes s t

/-- 42_arith.md §1 and §4, CMP_RI: the flags of SUB, and no register written. -/
def Obligations.CompareImmediateSetsFlagsOnly : Prop :=
  ∀ (dst : Reg) (imm : Byte) (s : State), ∃ t, exec (.cmpRI dst.index imm) s = .next t ∧
    (t.z = true ↔ s.reg dst = imm) ∧
    (t.c = true ↔ (s.reg dst).toNat < imm.toNat) ∧ t.pc = s.pc + 3 ∧ t.sp = s.sp ∧
    SameRegs s t ∧ SameStatus s t ∧ SameBytes s t

/-- 42_arith.md §1 and §5, MUL: the low byte of the product; `C` when the product exceeds 255. -/
def Obligations.MulKeepsLowByteOfProduct : Prop :=
  ∀ (dst src : Reg) (s : State), ∃ t, exec (.mul dst.index src.index) s = .next t ∧
    (t.reg dst).toNat = (s.reg dst).toNat * (s.reg src).toNat % 256 ∧
    (t.z = true ↔ (s.reg dst).toNat * (s.reg src).toNat % 256 = 0) ∧
    (t.c = true ↔ (s.reg dst).toNat * (s.reg src).toNat > 255) ∧ t.pc = s.pc + 3 ∧ t.sp = s.sp ∧
    SameRegsBut dst s t ∧ SameStatus s t ∧ SameBytes s t

/-- 42_arith.md §1 and §6, DIV with a divisor that is not 0: the result is the largest `q` with
`q * b ≤ a`; `Z` when the dividend is below the divisor; `C` is kept. That meaning of division is
PRESUMED by the spec itself (log 16). -/
def Obligations.DivStoresFloorQuotient : Prop :=
  ∀ (dst src : Reg) (s : State), s.reg src ≠ 0 → ∃ t, exec (.div dst.index src.index) s = .next t ∧
    (t.reg dst).toNat * (s.reg src).toNat ≤ (s.reg dst).toNat ∧
    (s.reg dst).toNat < ((t.reg dst).toNat + 1) * (s.reg src).toNat ∧
    (t.z = true ↔ (s.reg dst).toNat < (s.reg src).toNat) ∧ t.c = s.c ∧ t.pc = s.pc + 3 ∧ t.sp = s.sp ∧
    SameRegsBut dst s t ∧ SameStatus s t ∧ SameBytes s t

/-- 42_arith.md §6, 60_exceptions.md §1: DIV by zero surfaces a fault and gives the quotient no value
(R164); the cause is DivideByZero, code 3, with the divisor's index (R163, R231), and nothing else changes
(R234, whose precision is the spec's own inference: "[derived: the precision, from the order of lines in
40_dispatch.md rule R125 and 42_arith.md rule R163]"). That the fault is answered as a next state is the
model's choice (log 6). -/
def Obligations.DivByZeroFaultsWithoutAValue : Prop :=
  ∀ (dst src : Reg) (s : State), s.reg src = 0 →
    exec (.div dst.index src.index) s =
      .next { s with run := .faulted, fcause := 3, finfo := src.index }

/-- R160: after CMP of `a` with `b`, in either form, JZ is taken exactly when they are equal and JNZ
exactly when they differ; no instruction branches on `C`; the host reads `a < b` in `C`. The spec marks
this as its own inference: "[derived: from rule R158, rule R159 and 43_control.md rules R194, R195]". -/
def Obligations.BranchAfterCompareTestsEquality : Prop :=
  (∀ (dst src : Reg) (target : Addr) (s : State), ∃ t, exec (.cmpRR dst.index src.index) s = .next t ∧
    (∃ u, exec (.jz target) t = .next u ∧
      u.pc = if s.reg dst = s.reg src then target else s.pc + 6) ∧
    (∃ u, exec (.jnz target) t = .next u ∧
      u.pc = if s.reg dst = s.reg src then s.pc + 6 else target) ∧
    (t.c = true ↔ (s.reg dst).toNat < (s.reg src).toNat)) ∧
  (∀ (dst : Reg) (imm : Byte) (target : Addr) (s : State), ∃ t, exec (.cmpRI dst.index imm) s = .next t ∧
    (∃ u, exec (.jz target) t = .next u ∧ u.pc = if s.reg dst = imm then target else s.pc + 6) ∧
    (∃ u, exec (.jnz target) t = .next u ∧ u.pc = if s.reg dst = imm then s.pc + 6 else target) ∧
    (t.c = true ↔ (s.reg dst).toNat < imm.toNat)) ∧
  (∀ (i : Instr) (s : State) (b : Bool) (t : State), exec i s = .next t →
    ∃ t', exec i { s with c := b } = .next t' ∧ t'.pc = t.pc)

/-! ### Control transfer and stack -/

/-- 43_control.md §2, JMP: only the PC changes, to the target. -/
def Obligations.JmpSetsPcToTarget : Prop :=
  ∀ (target : Addr) (s : State), exec (.jmp target) s = .next { s with pc := target }

/-- 43_control.md §2, JZ: only the PC changes, to the target when `Z`, else past the operand bytes. -/
def Obligations.JzBranchesWhenZero : Prop :=
  ∀ (target : Addr) (s : State),
    exec (.jz target) s = .next { s with pc := if s.z = true then target else s.pc + 3 }

/-- 43_control.md §2, JNZ: JZ with the condition inverted. -/
def Obligations.JnzBranchesWhenNotZero : Prop :=
  ∀ (target : Addr) (s : State),
    exec (.jnz target) s = .next { s with pc := if s.z = true then s.pc + 3 else target }

/-- 43_control.md §2, CALL: the return address `start + 3` lies below SP, high byte at the higher
address; the PC is the target; every other byte reads as before. -/
def Obligations.CallPushesReturnAddress : Prop :=
  ∀ (target : Addr) (s : State), ∃ t, exec (.call target) s = .next t ∧
    t.pc = target ∧ t.sp = s.sp - 2 ∧
    (t.load (s.sp - 1)).toNat = (s.pc + 3).toNat / 256 ∧
    (t.load (s.sp - 2)).toNat = (s.pc + 3).toNat % 256 ∧
    (∀ a, a ≠ s.sp - 1 → a ≠ s.sp - 2 → t.load a = s.load a) ∧
    t.z = s.z ∧ t.c = s.c ∧ SameRegs s t ∧ SameStatus s t

/-- 43_control.md §2, RET: the PC is the pair at SP, low byte lower; SP is two higher; no byte changes. -/
def Obligations.RetPopsReturnAddress : Prop :=
  ∀ s : State, ∃ t, exec .ret s = .next t ∧
    t.pc.toNat = (s.load (s.sp + 1)).toNat * 256 + (s.load s.sp).toNat ∧ t.sp = s.sp + 2 ∧
    t.z = s.z ∧ t.c = s.c ∧ SameRegs s t ∧ SameStatus s t ∧ SameBytes s t

/-- R190: `push16(v)` leaves the low byte at SP and the high byte above it, SP two less, and every other
byte and field as before. -/
def Obligations.PushStoresHighByteAboveLow : Prop :=
  ∀ (s : State) (v : Addr),
    (s.push16 v).sp = s.sp - 2 ∧
    ((s.push16 v).load (s.push16 v).sp).toNat = v.toNat % 256 ∧
    ((s.push16 v).load ((s.push16 v).sp + 1)).toNat = v.toNat / 256 ∧
    (∀ a, a ≠ s.sp - 1 → a ≠ s.sp - 2 → (s.push16 v).load a = s.load a) ∧
    { s.push16 v with sp := s.sp, mem := s.mem } = s

/-- R191: `pop16()` reads the low byte at SP and the high byte above it, leaves SP two higher, and
changes nothing else. -/
def Obligations.PopReadsLowByteThenHigh : Prop :=
  ∀ s : State,
    s.pop16.1.toNat = (s.load (s.sp + 1)).toNat * 256 + (s.load s.sp).toNat ∧
    s.pop16.2 = { s with sp := s.sp + 2 }

/-- R192: `pop16()` undoes `push16(v)` for every SP and every value, when no memory write stands between
them; from SP 0x0000 the bytes lie at 0xFFFF and 0xFFFE, from 0x0001 at 0x0000 and 0xFFFF. -/
def Obligations.PopUndoesPush : Prop :=
  (∀ (s u : State) (v : Addr), u.sp = (s.push16 v).sp → u.mem = (s.push16 v).mem →
    u.pop16.1 = v ∧ u.pop16.2.sp = s.sp) ∧
  (∀ (s : State) (v : Addr), s.sp = 0x0000 →
    (s.push16 v).load 0xFFFF = hiByte v ∧ (s.push16 v).load 0xFFFE = loByte v) ∧
  (∀ (s : State) (v : Addr), s.sp = 0x0001 →
    (s.push16 v).load 0x0000 = hiByte v ∧ (s.push16 v).load 0xFFFF = loByte v)

/-- R198: a CALL and the RET that ends what it called leave the PC past the CALL and SP as it was,
whatever runs between them, as long as it leaves SP where CALL put it and the two pushed bytes as they
were; with a RET at the call target, two steps do it. The general law is the spec's own inference:
"[derived: the generalisation, from rule R192, rule R196 and rule R197]". -/
def Obligations.CallThenRetIsBalanced : Prop :=
  (∀ (target : Addr) (s t u : State), exec (.call target) s = .next t → u.sp = t.sp →
    u.load t.sp = t.load t.sp → u.load (t.sp + 1) = t.load (t.sp + 1) →
    ∃ v, exec .ret u = .next v ∧ v.pc = s.pc + 3 ∧ v.sp = s.sp) ∧
  (∀ (opc : OpcodeMap) (target : Addr) (s t : State), s.run = .running →
    fetchInstr opc s = .ok (.call target) → stepWith opc s = .next t → t.load target = opc.code .ret →
    ∃ u, stepWith opc t = .next u ∧ u.pc = s.pc + 3 ∧ u.sp = s.sp)

/-- 43_control.md §2, JMP: a JMP to its own address loops for ever with no change of state; no number of
steps ends the run. -/
def Obligations.JmpToItselfNeverEnds : Prop :=
  ∀ (opc : OpcodeMap) (n : Nat) (s : State), s.run = .running →
    fetchInstr opc s = .ok (.jmp s.pc) → runWith opc n s = .next s

/-! ### Halt -/

/-- 44_halt.md: HLT halts and changes nothing else but the PC, which the opcode fetch left just past its
byte. That PC value is the spec's own inference: "[derived: the PC value, from 40_dispatch.md rule R121 and
"no further field changes"]". -/
def Obligations.HltHaltsAndChangesNothingElse : Prop :=
  ∀ s : State, exec .hlt s = .next { s with run := .halted, pc := s.pc + 1 }

/-- 44_halt.md, 10_state.md §5: a Running core becomes Halted exactly by HLT. -/
def Obligations.OnlyHltReachesHalted : Prop :=
  ∀ (opc : OpcodeMap) (s t : State), s.run = .running → stepWith opc s = .next t →
    (t.run = .halted ↔ fetchInstr opc s = .ok .hlt)

/-! ### Rules about every instruction -/

/-- 10_state.md §3: only CALL and RET change SP, CALL by two down and RET by two up, modulo 65536. -/
def Obligations.OnlyCallAndRetMoveSp : Prop :=
  ∀ (i : Instr) (s t : State), exec i s = .next t →
    t.sp = match i with
      | .call _ => s.sp - 2
      | .ret => s.sp + 2
      | _ => s.sp

/-- R26: the PC after every instruction: past its bytes, at the target, at the popped address, or, after
a fault, back at its opcode byte. The spec marks the table as its own inference: "[derived: from
40_dispatch.md rule R121 and the instruction rules]". -/
def Obligations.PcAfterEveryInstruction : Prop :=
  ∀ (opc : OpcodeMap) (s t : State), stepWith opc s = .next t →
    (t.run = .faulted → t.pc = s.pc) ∧
    (t.run ≠ .faulted → ∃ i, fetchInstr opc s = .ok i ∧
      t.pc = match i with
        | .jmp target => target
        | .jz target => if s.z = true then target else s.pc + 3
        | .jnz target => if s.z = false then target else s.pc + 3
        | .call target => target
        | .ret => word16 (s.load (s.sp + 1)) (s.load s.sp)
        | .hlt => s.pc + 1
        | _ => s.pc + 3)

/-- 20_memory.md §1: no instruction but CALL writes memory. -/
def Obligations.OnlyCallWritesMemory : Prop :=
  ∀ (i : Instr) (s t : State), exec i s = .next t → (∀ target, i ≠ .call target) → t.mem = s.mem

/-- R30: JMP, JZ, JNZ, CALL, RET and HLT write neither flag, and neither does a step that ends in a fault.
The spec marks this as its own inference: "[derived: from rule R28 and rule R29, which list every writer; and
60_exceptions.md rule R234]". -/
def Obligations.ControlAndFaultsKeepFlags : Prop :=
  (∀ (i : Instr) (s t : State), i.mnemonic ∈ [Mnemonic.jmp, .jz, .jnz, .call, .ret, .hlt] →
    exec i s = .next t → t.z = s.z ∧ t.c = s.c) ∧
  (∀ (opc : OpcodeMap) (s t : State), stepWith opc s = .next t → t.run = .faulted →
    t.z = s.z ∧ t.c = s.c)

/-- 10_state.md §4: no instruction reads `C`: two states that differ in `C` alone run alike, and their
next states differ in `C` alone. -/
def Obligations.CarryIsNeverRead : Prop :=
  ∀ (i : Instr) (s t : State) (b : Bool), exec i s = .next t →
    ∃ b', exec i { s with c := b } = .next { t with c := b' }

/-- 60_exceptions.md §1, 40_dispatch.md §2: a register byte above 3 raises IllegalRegister (code 2) with
that byte, byte 1 before byte 2, and the state is otherwise as before the instruction. The fault is
answered as a next state (log 6). -/
def Obligations.FirstIllegalRegisterByteIsReported : Prop :=
  (∀ f ∈ [Instr.movRR, .addRR, .subRR, .cmpRR, .mul, .div], ∀ (b1 b2 : Byte) (s : State),
    (3 < b1.toNat → exec (f b1 b2) s = .next { s with run := .faulted, fcause := 2, finfo := b1 }) ∧
    (b1.toNat ≤ 3 → 3 < b2.toNat →
      exec (f b1 b2) s = .next { s with run := .faulted, fcause := 2, finfo := b2 })) ∧
  (∀ f ∈ [Instr.movRI, .addRI, .subRI, .cmpRI], ∀ (b1 imm : Byte) (s : State), 3 < b1.toNat →
    exec (f b1 imm) s = .next { s with run := .faulted, fcause := 2, finfo := b1 })

/-- R234: a step that ends in a fault records the cause and its value, leaves the PC at the faulting
instruction's opcode byte, and leaves registers, flags, SP and memory exactly as they were. That
precision is the spec's own inference: "[derived: the precision, from the order of lines in 40_dispatch.md
rule R125 and 42_arith.md rule R163]". The fault is answered as a next state (log 6). -/
def Obligations.FaultsArePrecise : Prop :=
  ∀ (opc : OpcodeMap) (s t : State), stepWith opc s = .next t → t.run = .faulted →
    ∃ cause info : Byte, t = { s with run := .faulted, fcause := cause, finfo := info } ∧
      ((cause = 1 ∧ info = s.load s.pc ∧ ∀ m, opc.code m ≠ info) ∨
       (cause = 2 ∧ 3 < info.toNat ∧ (info = s.load (s.pc + 1) ∨ info = s.load (s.pc + 2))) ∨
       (cause = 3 ∧ ∃ r : Reg, info = r.index ∧ s.reg r = 0 ∧
         ∃ b, fetchInstr opc s = .ok (.div b r.index)))

/-- 43_control.md §2, 44_halt.md: on a Running core JMP, JZ, JNZ, CALL, RET and HLT raise no fault: HLT
halts, the others leave the core Running, and none touches the fault status. -/
def Obligations.ControlInstructionsNeverFault : Prop :=
  ∀ (i : Instr) (s : State), i.mnemonic ∈ [Mnemonic.jmp, .jz, .jnz, .call, .ret, .hlt] →
    s.run = .running →
    ∃ t, exec i s = .next t ∧ t.run = (if i = .hlt then .halted else .running) ∧
      t.fcause = s.fcause ∧ t.finfo = s.finfo

/-! ### Invariant -/

/-- 20_memory.md §1, 10_state.md §5, 60_exceptions.md §1: from every state with canonical memory and an
honest fault status, every step leads to such a state, under every opcode map. -/
def Obligations.StepKeepsTheInvariant : Prop :=
  ∀ (opc : OpcodeMap) (s t : State), invWith opc s = true → stepWith opc s = .next t →
    invWith opc t = true

/-- 10_state.md §7: the state after reset satisfies the invariant. -/
def Obligations.ResetSatisfiesTheInvariant : Prop :=
  ∀ opc : OpcodeMap, invWith opc State.reset = true

/-- 60_exceptions.md §5: no sequence of operations the host is allowed leaves the invariant. -/
def Obligations.HostOperationsKeepTheInvariant : Prop :=
  ∀ (opc : OpcodeMap) (ops : List HostOp) (h h' : Session), invWith opc h.core = true →
    hostAllWith opc ops h = .ok h' → invWith opc h'.core = true

/-! ### Reset and host -/

/-- R260: reset sets PC, SP, run state and fault status, leaves memory alone, in any run state; nothing
counts as written after it. The values of A to D, Z and C are whatever the implementation gives. -/
def Obligations.ResetSetsCoreAndKeepsMemory : Prop :=
  (∀ (v : ResetValues) (s : State),
    (s.resetBy v).pc = 0x0000 ∧ (s.resetBy v).sp = v.sp ∧ (s.resetBy v).run = .running ∧
    (s.resetBy v).fcause = 0 ∧ (s.resetBy v).finfo = 0 ∧ (s.resetBy v).mem = s.mem) ∧
  (∀ l : Loc, Marks.reset.has l = false) ∧
  (State.reset.pc = 0x0000 ∧ State.reset.run = .running ∧ State.reset.fcause = 0 ∧ State.reset.finfo = 0)

/-- 60_exceptions.md §5: when the host's operations are allowed and what they do. `started` is the model's
own choice (log 10). -/
def Obligations.HostPortAllowsAndEffects : Prop :=
  ∀ (opc : OpcodeMap) (h : Session),
    (∀ v, hostWith opc (.reset v) h = .ok (⟨h.core.resetBy v, false⟩, .done)) ∧
    (∀ a v, (∃ x, hostWith opc (.memWrite a v) h = .ok x) ↔ h.started = false) ∧
    (∀ a v h' r, hostWith opc (.memWrite a v) h = .ok (h', r) →
      h'.core.load a = v ∧ (∀ b, b ≠ a → h'.core.load b = h.core.load b) ∧
        { h'.core with mem := h.core.mem } = h.core) ∧
    (∀ a, hostWith opc (.memRead a) h = .ok (h, .byte (h.core.load a))) ∧
    ((∃ x, hostWith opc .step h = .ok x) ↔ h.core.run = .running) ∧
    (∀ h' r, hostWith opc .step h = .ok (h', r) → stepWith opc h.core = .next h'.core ∧ h'.started = true) ∧
    hostWith opc .status h = .ok (h, .status h.core.run h.core.fcause h.core.finfo) ∧
    hostWith opc .regs h = .ok (h, .regs h.core.regs h.core.z h.core.c h.core.pc h.core.sp)

/-- 70_reset_and_hazards.md §2, 20_memory.md §5: after the boot order the image lies at address 0, every
other byte is as before, and the core is Running at 0x0000 with the SP the host chose. -/
def Obligations.BootPlacesTheImage : Prop :=
  ∀ (opc : OpcodeMap) (image : List Byte) (v : ResetValues) (h : Session), image.length ≤ 65536 →
    h.started = false →
    ∃ h', hostAllWith opc (bootOps image v) h = .ok h' ∧ h'.started = false ∧
      h'.core.pc = 0x0000 ∧ h'.core.run = .running ∧ h'.core.sp = v.sp ∧
      (∀ k (hk : k < image.length), h'.core.load (BitVec.ofNat 16 k) = image[k]) ∧
      (∀ a : Addr, image.length ≤ a.toNat → h'.core.load a = h.core.load a)

/-! ### Bus and ordering -/

/-- R67: the accesses of every instruction, in order, and no others; a faulting instruction writes none. -/
def Obligations.BusAccessesFollowTheTable : Prop :=
  (∀ (opc : OpcodeMap) (s : State), s.run = .running →
    (fetchInstr opc s = .ok .ret →
      busWith opc s = [.read s.pc, .read s.sp, .read (s.sp + 1)]) ∧
    (fetchInstr opc s = .ok .hlt → busWith opc s = [.read s.pc]) ∧
    (∀ i, fetchInstr opc s = .ok i → i ≠ .ret → i ≠ .hlt → (∀ target, i ≠ .call target) →
      busWith opc s = [.read s.pc, .read (s.pc + 1), .read (s.pc + 2)]) ∧
    (∀ target, fetchInstr opc s = .ok (.call target) →
      ∃ hi lo : Byte, hi.toNat = (s.pc + 3).toNat / 256 ∧ lo.toNat = (s.pc + 3).toNat % 256 ∧
        busWith opc s = [.read s.pc, .read (s.pc + 1), .read (s.pc + 2),
          .write (s.sp - 1) hi, .write (s.sp - 2) lo]) ∧
    ((∀ m, opc.code m ≠ s.load s.pc) → busWith opc s = [.read s.pc])) ∧
  (∀ (opc : OpcodeMap) (s t : State), stepWith opc s = .next t → t.run = .faulted →
    ∀ a v, Access.write a v ∉ busWith opc s)

/-- 20_memory.md §7 and §8: the memory after a step is the memory before it with the step's bus writes
done in order: the bus shows every write there is. -/
def Obligations.BusWritesAreAllThatMemoryTakes : Prop :=
  ∀ (opc : OpcodeMap) (s t : State), stepWith opc s = .next t → t.mem = replay s.mem (busWith opc s)

/-- 20_memory.md §7 and §8, 40_dispatch.md §3: a step depends on no byte of memory but those its bus reads show: in a
memory that agrees on them, the same accesses are made and the same next state follows, but for the bytes
not accessed. -/
def Obligations.BusReadsAreAllThatAStepSees : Prop :=
  ∀ (opc : OpcodeMap) (s : State) (m : Memory),
    (∀ a, Access.read a ∈ busWith opc s → m.read a = s.mem.read a) →
    busWith opc { s with mem := m } = busWith opc s ∧
    ∀ t, stepWith opc s = .next t →
      stepWith opc { s with mem := m } = .next { t with mem := replay m (busWith opc s) }

/-- 20_memory.md §7: fetch sees what a CALL just wrote. When the call target is the pushed pair itself,
the next fetch reads the return address's low byte as its opcode and the high byte as operand byte 1;
and the CALL's own target is the one fetched before the push, wherever the push lands. -/
def Obligations.FetchSeesBytesACallWrote : Prop :=
  ∀ (opc : OpcodeMap) (s : State) (target : Addr), s.run = .running →
    fetchInstr opc s = .ok (.call target) →
    ∃ t, stepWith opc s = .next t ∧ t.pc = target ∧
      ∀ m, target = s.sp - 2 → opc.code m = loByte (s.pc + 3) →
        fetchInstr opc t = .ok (Instr.ofOperands m (hiByte (s.pc + 3)) (s.load s.sp))

/-! ### The spec's own model step -/

/-- 00_scope.md §5, 60_exceptions.md §1: the value a reset leaves in an unwritten register or flag cannot
be told apart in a run: from two states that agree on what has been written, runs of any length end alike,
in next states or fault states that agree on what has been written, or in the same UninitRead (log 5). A
fault leaves the marks of what has been written (log 19). -/
def Obligations.ResetValuesAreUnobservable : Prop :=
  ∀ (opc : OpcodeMap) (n : Nat) (m : Marks) (s s' : State), SameWritten m s s' →
    (∀ t m', specRunWith opc n s m = .next (t, m') →
      ∃ t', specRunWith opc n s' m = .next (t', m') ∧ SameWritten m' t t') ∧
    (∀ f t m', specRunWith opc n s m = .fault (.execution f t m') →
      ∃ t', specRunWith opc n s' m = .fault (.execution f t' m') ∧ SameWritten m' t t') ∧
    (∀ l, specRunWith opc n s m = .fault (.uninitRead l) →
      specRunWith opc n s' m = .fault (.uninitRead l))

/-- 40_dispatch.md §3: the spec's model step has three results. A next state is the machine's, and is not
Faulted. An execution fault carries the cause whose entry is the machine's next state (log 6), and leaves
the marks (log 19). It has no step exactly where the machine has none (log 7). An illegal opcode is
reported whatever is unwritten. Whenever all that the fetched instruction reads has been written, it
answers what the machine does: a fault exactly when the machine enters Faulted, else the next state with
what the instruction writes marked. Nothing is refused. -/
def Obligations.SpecStepIsTheMachinesStep : Prop :=
  (∀ (opc : OpcodeMap) (s t : State) (m m' : Marks), specStepWith opc s m = .next (t, m') →
    stepWith opc s = .next t ∧ t.run ≠ .faulted) ∧
  (∀ (opc : OpcodeMap) (s t : State) (m m' : Marks) (f : HwFault),
    specStepWith opc s m = .fault (.execution f t m') →
    stepWith opc s = .next t ∧ t = takeFault f s.pc s ∧ m' = m) ∧
  (∀ (opc : OpcodeMap) (s : State) (m : Marks) (f : Fault),
    specStepWith opc s m = .fault (.noStep f) ↔ stepWith opc s = .fault f) ∧
  (∀ (opc : OpcodeMap) (s : State) (m : Marks), s.run = .running → (∀ n, opc.code n ≠ s.load s.pc) →
    specStepWith opc s m = .fault (.execution (.illegalOpcode (s.load s.pc))
      { s with run := .faulted, fcause := 1, finfo := s.load s.pc } m)) ∧
  (∀ (opc : OpcodeMap) (s : State) (m : Marks) (i : Instr), s.run = .running →
    fetchInstr opc s = .ok i → (∀ l ∈ reads i, m.has l = true) →
    ∃ t, stepWith opc s = .next t ∧
      (t.run = .faulted → ∃ f, specStepWith opc s m = .fault (.execution f t m)) ∧
      (t.run ≠ .faulted → specStepWith opc s m = .next (t, m.after i))) ∧
  (∀ (opc : OpcodeMap) (s : State) (m : Marks) (r : Refusal), specStepWith opc s m ≠ .refused r)

/-- 60_exceptions.md §1: UninitRead names the first unwritten operand in reading order, before
DivideByZero and after IllegalRegister; JZ and JNZ raise it for `Z`; MOV_RR for its source alone, its
destination being legal unwritten, and MOV_RI for nothing. In all ten forms with a register operand a byte
above 3 is IllegalRegister whatever is unwritten; the fault leaves the marks (log 19) and its state is the
one that the machine's step answers (log 6). -/
def Obligations.UninitReadComesInRuleOrder : Prop :=
  ∀ (opc : OpcodeMap) (s : State) (m : Marks) (dst src : Reg), s.run = .running →
    (∀ f ∈ [Instr.addRR, .subRR, .cmpRR, .mul, .div], fetchInstr opc s = .ok (f dst.index src.index) →
      (m.has (.reg dst) = false → specStepWith opc s m = .fault (.uninitRead (.reg dst))) ∧
      (m.has (.reg dst) = true → m.has (.reg src) = false →
        specStepWith opc s m = .fault (.uninitRead (.reg src)))) ∧
    (∀ f ∈ [Instr.addRI, .subRI, .cmpRI], ∀ imm, fetchInstr opc s = .ok (f dst.index imm) →
      m.has (.reg dst) = false → specStepWith opc s m = .fault (.uninitRead (.reg dst))) ∧
    (fetchInstr opc s = .ok (.movRR dst.index src.index) → m.has (.reg src) = false →
      specStepWith opc s m = .fault (.uninitRead (.reg src))) ∧
    (fetchInstr opc s = .ok (.movRR dst.index src.index) → m.has (.reg src) = true →
      ∃ t, specStepWith opc s m = .next (t, m.after (.movRR dst.index src.index))) ∧
    (∀ imm, fetchInstr opc s = .ok (.movRI dst.index imm) →
      ∃ t, specStepWith opc s m = .next (t, m.after (.movRI dst.index imm))) ∧
    (∀ target, fetchInstr opc s = .ok (.jz target) ∨ fetchInstr opc s = .ok (.jnz target) →
      m.has .z = false → specStepWith opc s m = .fault (.uninitRead .z)) ∧
    (∀ f ∈ [Instr.movRR, .addRR, .subRR, .cmpRR, .mul, .div], ∀ b1 b2 : Byte,
      fetchInstr opc s = .ok (f b1 b2) → 3 < b1.toNat ∨ 3 < b2.toNat →
      let b := if 3 < b1.toNat then b1 else b2
      specStepWith opc s m = .fault (.execution (.illegalRegister b)
        { s with run := .faulted, fcause := 2, finfo := b } m)) ∧
    (∀ f ∈ [Instr.movRI, .addRI, .subRI, .cmpRI], ∀ b imm : Byte,
      fetchInstr opc s = .ok (f b imm) → 3 < b.toNat →
      specStepWith opc s m = .fault (.execution (.illegalRegister b)
        { s with run := .faulted, fcause := 2, finfo := b } m))

/-! ### Assembler -/

/-- 30_encoding.md §5: the image of an accepted program is read back as exactly its instructions, and it
is at most 65536 bytes long. -/
def Obligations.AssembledImageDecodesToItsProgram : Prop :=
  ∀ (opc : OpcodeMap) (source : Text) (p : Program), assembleWith opc source = .ok p →
    disassembleWith opc p.image.length p.image = some (p.code.map Prod.snd) ∧ p.image.length ≤ 65536

/-- 30_encoding.md §2 and §5: the assembler never emits a register index above 3. -/
def Obligations.AssemblerEmitsOnlyLegalRegisters : Prop :=
  ∀ (opc : OpcodeMap) (source : Text) (p : Program), assembleWith opc source = .ok p →
    ∀ entry ∈ p.code, entry.2.wellFormed = true

/-- 30_encoding.md §5: the byte offset of every instruction's first emitted byte is the address pass 1
gave it. -/
def Obligations.EmittedOffsetsArePassOneAddresses : Prop :=
  ∀ (opc : OpcodeMap) (source : Text) (p : Program), assembleWith opc source = .ok p →
    ∀ k (hk : k < p.code.length), (p.code[k]).1 = (emitWith opc (p.code.take k)).length

/-- R106: for `mov`, `add` and `sub` a register name selects the RR form, a literal the RI form and
anything else is an error; `cmp` looks at the digits first; the two rules accept the same operands and
pick the same form. The spec marks this as its own inference: "[derived: from rule R104 and the two dispatch
sentences of §4.2]". -/
def Obligations.FormChoiceRulesAgree : Prop :=
  ∀ (rr ri : Byte → Byte → Instr) (b : Byte) (t : Text),
    (∀ r, registerOf t = some r → formByName rr ri b t = .ok (rr b r)) ∧
    (∀ n, immediateOf t = some n → formByName rr ri b t = .ok (ri b n)) ∧
    (registerOf t = none → immediateOf t = none → ∃ k, formByName rr ri b t = .error k) ∧
    (allDigits t = true → ∀ i, formByDigits rr ri b t = .ok i → ∃ n, i = ri b n) ∧
    (allDigits t = false → ∀ i, formByDigits rr ri b t = .ok i →
      ∃ r, registerOf t = some r ∧ i = rr b r) ∧
    (∀ i, formByName rr ri b t = .ok i ↔ formByDigits rr ri b t = .ok i)
end

