-- ==== Sys2Proof/Laws/Decode.lean ====
section
/-! SUPPORT. What the opcode lookup and the byte order helpers do. -/

namespace Sys2Proof

theorem Mnemonic.mem_all (m : Mnemonic) : m ∈ Mnemonic.all := by cases m <;> decide

/-- The lookup answers an instruction exactly for its opcode byte (R87). -/
theorem OpcodeMap.lookup_some_iff (opc : OpcodeMap) (b : Byte) (m : Mnemonic) :
    opc.lookup b = some m ↔ opc.code m = b := by
  unfold OpcodeMap.lookup
  constructor
  · intro h
    simpa using List.find?_some h
  · intro h
    cases hf : Mnemonic.all.find? fun n => opc.code n == b with
    | none =>
      have := List.find?_eq_none.mp hf m m.mem_all
      simp [h] at this
    | some n =>
      have hn : opc.code n = b := by simpa using List.find?_some hf
      rw [opc.injective n m (hn.trans h.symm)]

@[simp] theorem OpcodeMap.lookup_code (opc : OpcodeMap) (m : Mnemonic) :
    opc.lookup (opc.code m) = some m := (opc.lookup_some_iff _ m).mpr rfl

/-- The lookup answers nothing exactly outside the image of `OPC` (R88). -/
theorem OpcodeMap.lookup_none_iff (opc : OpcodeMap) (b : Byte) :
    opc.lookup b = none ↔ ∀ m, opc.code m ≠ b := by
  constructor
  · intro h m hm
    rw [(opc.lookup_some_iff b m).mpr hm] at h
    cases h
  · intro h
    cases hl : opc.lookup b with
    | none => rfl
    | some m => exact absurd ((opc.lookup_some_iff b m).mp hl) (h m)

theorem word16_toNat (hi lo : Byte) : (word16 hi lo).toNat = hi.toNat * 256 + lo.toNat := by
  have := hi.isLt
  have := lo.isLt
  rw [word16, BitVec.toNat_ofNat]
  omega

@[simp] theorem loByte_word16 (hi lo : Byte) : loByte (word16 hi lo) = lo := by
  apply BitVec.eq_of_toNat_eq
  have := lo.isLt
  rw [loByte, BitVec.toNat_ofNat, word16_toNat]
  omega

@[simp] theorem hiByte_word16 (hi lo : Byte) : hiByte (word16 hi lo) = hi := by
  apply BitVec.eq_of_toNat_eq
  have := hi.isLt
  have := lo.isLt
  rw [hiByte, BitVec.toNat_ofNat, word16_toNat]
  omega

@[simp] theorem word16_hiByte_loByte (v : Addr) : word16 (hiByte v) (loByte v) = v := by
  apply BitVec.eq_of_toNat_eq
  have := v.isLt
  rw [word16_toNat, hiByte, loByte, BitVec.toNat_ofNat, BitVec.toNat_ofNat]
  omega

end Sys2Proof
end

