-- ==== Sys2Proof/Laws/Assembler.lean ====
section
/-! SUPPORT. What the shared operations of the assembler can answer, once. -/

namespace Sys2Proof.Machine

/-- A register name stands for a legal index (R104). -/
theorem registerOf_legal {t : Text} {b : Byte} (h : registerOf t = some b) : legalIndex b = true := by
  unfold registerOf at h
  split at h
  · cases h; rfl
  · split at h
    · cases h; rfl
    · split at h
      · cases h; rfl
      · split at h
        · cases h; rfl
        · cases h

theorem needRegister_ok {t : Text} {b : Byte} (h : needRegister t = .ok b) : registerOf t = some b := by
  unfold needRegister at h
  split at h
  · cases h
  · cases h; assumption

/-- What a two-operand line that is accepted holds. -/
theorem twoOperands_ok {args : List Text} {form : Byte → Text → Except AsmErrorKind Instr} {i : Instr}
    (h : twoOperands args form = .ok i) :
    ∃ r t b, args = [r, t] ∧ registerOf r = some b ∧ form b t = .ok i := by
  unfold twoOperands at h
  split at h
  · rename_i r t
    split at h
    · cases h
    · exact ⟨r, t, _, rfl, needRegister_ok ‹_›, h⟩
  · cases h

/-- What a one-label line that is accepted holds. -/
theorem oneLabel_ok {st : SymTab} {args : List Text} {mk : Addr → Instr} {i : Instr}
    (h : oneLabel st args mk = .ok i) :
    ∃ t a, args = [t] ∧ st.lookup t = some a ∧ i = mk (BitVec.ofNat 16 a) := by
  unfold oneLabel at h
  split at h
  · rename_i t
    unfold targetOf at h
    cases hl : List.lookup t st with
    | none => rw [hl] at h; cases h
    | some a => rw [hl] at h; cases h; exact ⟨t, a, rfl, hl, rfl⟩
  · cases h

theorem noOperands_ok {args : List Text} {i j : Instr} (h : noOperands args i = .ok j) :
    args = [] ∧ j = i := by
  unfold noOperands at h
  split at h
  · cases h; exact ⟨rfl, rfl⟩
  · cases h

/-- What a form chosen by register name can answer (R106). -/
theorem formByName_ok {rr ri : Byte → Byte → Instr} {b : Byte} {t : Text} {i : Instr}
    (h : formByName rr ri b t = .ok i) :
    (∃ src, registerOf t = some src ∧ i = rr b src) ∨ (∃ n, immediateOf t = some n ∧ i = ri b n) := by
  unfold formByName at h
  split at h
  · cases h; exact .inl ⟨_, ‹_›, rfl⟩
  · split at h
    · cases h; exact .inr ⟨_, ‹_›, rfl⟩
    · cases h

/-- What a form chosen by digits can answer (R106). -/
theorem formByDigits_ok {rr ri : Byte → Byte → Instr} {b : Byte} {t : Text} {i : Instr}
    (h : formByDigits rr ri b t = .ok i) :
    (∃ src, registerOf t = some src ∧ i = rr b src) ∨ (∃ n, immediateOf t = some n ∧ i = ri b n) := by
  unfold formByDigits at h
  split at h
  · split at h
    · cases h; exact .inr ⟨_, ‹_›, rfl⟩
    · cases h
  · split at h
    · cases h; exact .inl ⟨_, ‹_›, rfl⟩
    · cases h

theorem formRegisters_ok {rr : Byte → Byte → Instr} {b : Byte} {t : Text} {i : Instr}
    (h : formRegisters rr b t = .ok i) : ∃ src, registerOf t = some src ∧ i = rr b src := by
  unfold formRegisters at h
  split at h
  · cases h; exact ⟨_, ‹_›, rfl⟩
  · cases h

end Sys2Proof.Machine
end

