-- ==== Sys2Proof/Laws/Flags.lean ====
section
/-! SUPPORT. What the arithmetic unit computes, in the terms of 42_arith.md R151: one lemma for each
operation. -/

namespace Sys2Proof.Machine

theorem zeroFlag_iff (v : Byte) : zeroFlag v = true ↔ v.toNat = 0 := by simp [zeroFlag]

theorem zeroFlag_eq (v : Byte) : zeroFlag v = decide (v.toNat = 0) := rfl

/-- ADD: the sum mod 256, and both flags (R151). -/
theorem aluAdd_spec (a b : Byte) :
    (aluAdd a b).result.toNat = (a.toNat + b.toNat) % 256 ∧
      (aluAdd a b).zero = decide ((a.toNat + b.toNat) % 256 = 0) ∧
      (aluAdd a b).carry = decide (a.toNat + b.toNat > 255) := by
  simp [aluAdd, zeroFlag]

/-- MUL: the low byte of the product, and both flags (R151). -/
theorem aluMul_spec (a b : Byte) :
    (aluMul a b).result.toNat = a.toNat * b.toNat % 256 ∧
      (aluMul a b).zero = decide (a.toNat * b.toNat % 256 = 0) ∧
      (aluMul a b).carry = decide (a.toNat * b.toNat > 255) := by
  simp [aluMul, zeroFlag]

/-- SUB and CMP: the difference mod 256, `Z` on equality and `C` on borrow (R151). -/
theorem aluSub_spec (a b : Byte) :
    (aluSub a b).result = a - b ∧
      (aluSub a b).zero = decide (a = b) ∧
      (aluSub a b).carry = decide (a.toNat < b.toNat) := by
  have ha := a.isLt
  have hb := b.isLt
  have key : (aluSub a b).result.toNat = (256 + a.toNat - b.toNat) % 256 := by
    simp only [aluSub, BitVec.toNat_ofNat]
    omega
  have hr : (aluSub a b).result = a - b := by
    apply BitVec.eq_of_toNat_eq
    rw [key, BitVec.toNat_sub]
    omega
  have hz : (aluSub a b).zero = zeroFlag (aluSub a b).result := rfl
  refine ⟨hr, ?_, ?_⟩
  · rw [hz, zeroFlag_eq, key, decide_eq_decide]
    constructor
    · intro h
      exact BitVec.eq_of_toNat_eq (by omega)
    · intro h
      subst h
      omega
  · simp only [aluSub, decide_eq_decide]
    omega

/-- DIV: no value for a divisor of 0, else the floor quotient (R150, R164). -/
theorem aluDiv_none_iff (a b : Byte) : aluDiv a b = none ↔ b.toNat = 0 := by
  unfold aluDiv
  split <;> simp_all

theorem aluDiv_toNat {a b q : Byte} (h : aluDiv a b = some q) :
    b.toNat ≠ 0 ∧ q.toNat = a.toNat / b.toNat := by
  unfold aluDiv at h
  split at h
  · cases h
  · rename_i hb
    refine ⟨hb, ?_⟩
    injection h with h
    subst h
    rw [BitVec.toNat_ofNat]
    exact Nat.mod_eq_of_lt ((Nat.div_le_self _ _).trans_lt a.isLt)

end Sys2Proof.Machine
end

