-- ==== Sys2Proof/Laws/Memory.lean ====
section
/-! SUPPORT. What a memory operation can do, once: a read after a write, every other byte, and the
canonical form kept. -/

namespace Sys2Proof.Machine

/-! ### One address -/

theorem Memory.lookup_erase_same (m : Memory) (a : Nat) : (m.erase a).lookup a = Config.memFill := by
  induction m with
  | nil => rfl
  | cons cell rest ih =>
    obtain ⟨k, v⟩ := cell
    by_cases h : k = a
    · simpa [Memory.erase, h] using ih
    · have h' : a ≠ k := fun e => h e.symm
      simpa [Memory.erase, h, h', Memory.lookup] using ih

theorem Memory.lookup_erase_other (m : Memory) {a b : Nat} (hab : b ≠ a) :
    (m.erase a).lookup b = m.lookup b := by
  induction m with
  | nil => rfl
  | cons cell rest ih =>
    obtain ⟨k, v⟩ := cell
    by_cases h : k = a
    · have hb : b ≠ k := fun e => hab (e.trans h)
      simpa [Memory.erase, h, Memory.lookup, hb, hab] using ih
    · by_cases hb : b = k
      · simp [Memory.erase, h, Memory.lookup, hb]
      · simpa [Memory.erase, h, Memory.lookup, hb] using ih

theorem Memory.mem_erase {m : Memory} {a : Nat} {cell : Host.Cell} :
    cell ∈ m.erase a ↔ cell ∈ m ∧ cell.1 ≠ a := by
  simp [Memory.erase]

theorem Memory.lookup_place_same (m : Memory) (a : Nat) (v : Byte) (h : ∀ cell ∈ m, cell.1 ≠ a) :
    (m.place a v).lookup a = v := by
  induction m with
  | nil => simp [Memory.place, Memory.lookup]
  | cons cell rest ih =>
    obtain ⟨k, w⟩ := cell
    have hk : a ≠ k := fun e => h (k, w) (by simp) e.symm
    by_cases hlt : a < k
    · simp [Memory.place, hlt, Memory.lookup]
    · simpa [Memory.place, hlt, Memory.lookup, hk] using
        ih fun cell hc => h cell (by simp [hc])

theorem Memory.lookup_place_other (m : Memory) {a b : Nat} (v : Byte) (hab : b ≠ a) :
    (m.place a v).lookup b = m.lookup b := by
  induction m with
  | nil => simp [Memory.place, Memory.lookup, hab]
  | cons cell rest ih =>
    obtain ⟨k, w⟩ := cell
    by_cases hlt : a < k
    · simp [Memory.place, hlt, Memory.lookup, hab]
    · by_cases hb : b = k
      · simp [Memory.place, hlt, Memory.lookup, hb]
      · simpa [Memory.place, hlt, Memory.lookup, hb] using ih

theorem Memory.lookup_insert_same (m : Memory) (a : Nat) (v : Byte) : (m.insert a v).lookup a = v := by
  by_cases hv : v = Config.memFill
  · simp [Memory.insert, hv, Memory.lookup_erase_same]
  · simpa [Memory.insert, hv] using
      Memory.lookup_place_same (m.erase a) a v fun cell hc => (Memory.mem_erase.mp hc).2

theorem Memory.lookup_insert_other (m : Memory) {a b : Nat} (v : Byte) (hab : b ≠ a) :
    (m.insert a v).lookup b = m.lookup b := by
  by_cases hv : v = Config.memFill
  · simp [Memory.insert, hv, Memory.lookup_erase_other m hab]
  · simp [Memory.insert, hv, Memory.lookup_place_other _ v hab, Memory.lookup_erase_other m hab]

/-! ### The memory port -/

/-- A read after a write to the same address gives the byte written (R62). -/
@[simp] theorem Memory.read_write_same (m : Memory) (a : Addr) (v : Byte) : (m.write a v).read a = v :=
  Memory.lookup_insert_same m a.toNat v

/-- A write leaves every other byte alone (R58). -/
theorem Memory.read_write_other (m : Memory) {a b : Addr} (v : Byte) (h : b ≠ a) :
    (m.write a v).read b = m.read b :=
  Memory.lookup_insert_other m v fun e => h (BitVec.eq_of_toNat_eq e)

/-! ### The canonical form -/

theorem Memory.wfFrom_cons {lo k : Nat} {v : Byte} {rest : Memory} :
    Memory.wfFrom lo ((k, v) :: rest) = true ↔
      lo ≤ k ∧ k < 65536 ∧ v ≠ Config.memFill ∧ Memory.wfFrom (k + 1) rest = true := by
  simp [Memory.wfFrom, and_assoc]

theorem Memory.wfFrom_mono {lo lo' : Nat} (h : lo' ≤ lo) {m : Memory} (hm : Memory.wfFrom lo m = true) :
    Memory.wfFrom lo' m = true := by
  cases m with
  | nil => rfl
  | cons cell rest =>
    obtain ⟨k, v⟩ := cell
    rw [Memory.wfFrom_cons] at hm ⊢
    exact ⟨h.trans hm.1, hm.2⟩

theorem Memory.wfFrom_erase {lo : Nat} {m : Memory} (a : Nat) (hm : Memory.wfFrom lo m = true) :
    Memory.wfFrom lo (m.erase a) = true := by
  induction m generalizing lo with
  | nil => rfl
  | cons cell rest ih =>
    obtain ⟨k, v⟩ := cell
    rw [Memory.wfFrom_cons] at hm
    obtain ⟨hlo, hk, hv, hrest⟩ := hm
    by_cases h : k = a
    · have : Memory.erase ((k, v) :: rest) a = Memory.erase rest a := by simp [Memory.erase, h]
      rw [this]
      exact Memory.wfFrom_mono (by omega) (ih hrest)
    · have : Memory.erase ((k, v) :: rest) a = (k, v) :: Memory.erase rest a := by
        simp [Memory.erase, h]
      rw [this, Memory.wfFrom_cons]
      exact ⟨hlo, hk, hv, ih hrest⟩

theorem Memory.wfFrom_place {lo a : Nat} {v : Byte} {m : Memory} (hlo : lo ≤ a) (ha : a < 65536)
    (hv : v ≠ Config.memFill) (hne : ∀ cell ∈ m, cell.1 ≠ a) (hm : Memory.wfFrom lo m = true) :
    Memory.wfFrom lo (m.place a v) = true := by
  induction m generalizing lo with
  | nil => exact Memory.wfFrom_cons.mpr ⟨hlo, ha, hv, rfl⟩
  | cons cell rest ih =>
    obtain ⟨k, w⟩ := cell
    have hka : k ≠ a := hne (k, w) (by simp)
    rw [Memory.wfFrom_cons] at hm
    obtain ⟨h1, h2, h3, h4⟩ := hm
    by_cases hlt : a < k
    · simp only [Memory.place, hlt, if_true]
      rw [Memory.wfFrom_cons, Memory.wfFrom_cons]
      exact ⟨hlo, ha, hv, by omega, h2, h3, h4⟩
    · simp only [Memory.place, hlt, if_false]
      rw [Memory.wfFrom_cons]
      exact ⟨h1, h2, h3, ih (by omega) (fun cell hc => hne cell (by simp [hc])) h4⟩

/-- A write keeps the canonical form. -/
theorem Memory.wf_write {m : Memory} (a : Addr) (v : Byte) (hm : m.wf = true) :
    (m.write a v).wf = true := by
  have he := Memory.wfFrom_erase a.toNat hm
  unfold Memory.wf Memory.write Memory.insert
  split
  · exact he
  · exact Memory.wfFrom_place (Nat.zero_le _) a.isLt ‹_›
      (fun cell hc => (Memory.mem_erase.mp hc).2) he

/-- Writing consecutive bytes keeps the canonical form. -/
theorem Memory.wf_writeBytes (bytes : List Byte) {m : Memory} (a : Addr) (hm : m.wf = true) :
    (m.writeBytes a bytes).wf = true := by
  induction bytes generalizing m a with
  | nil => exact hm
  | cons v rest ih => exact ih _ (Memory.wf_write a v hm)

/-- The memory of the reset state is in canonical form. -/
theorem State.reset_mem_wf : State.reset.mem.wf = true := rfl

end Sys2Proof.Machine
end

