-- ==== Sys2Proof/Laws/State.lean ====
section
/-! SUPPORT. What each named update of the state does to each field, so that no proof unfolds a record
update; and what reading a register or a byte after an update gives. -/

namespace Sys2Proof.Machine

/-! ### setReg -/

@[simp] theorem State.setReg_regs (s : State) (r : Reg) (v : Byte) : (s.setReg r v).regs = s.regs.set r v := rfl
@[simp] theorem State.setReg_pc (s : State) (r : Reg) (v : Byte) : (s.setReg r v).pc = s.pc := rfl
@[simp] theorem State.setReg_sp (s : State) (r : Reg) (v : Byte) : (s.setReg r v).sp = s.sp := rfl
@[simp] theorem State.setReg_z (s : State) (r : Reg) (v : Byte) : (s.setReg r v).z = s.z := rfl
@[simp] theorem State.setReg_c (s : State) (r : Reg) (v : Byte) : (s.setReg r v).c = s.c := rfl
@[simp] theorem State.setReg_run (s : State) (r : Reg) (v : Byte) : (s.setReg r v).run = s.run := rfl
@[simp] theorem State.setReg_fcause (s : State) (r : Reg) (v : Byte) : (s.setReg r v).fcause = s.fcause := rfl
@[simp] theorem State.setReg_finfo (s : State) (r : Reg) (v : Byte) : (s.setReg r v).finfo = s.finfo := rfl
@[simp] theorem State.setReg_mem (s : State) (r : Reg) (v : Byte) : (s.setReg r v).mem = s.mem := rfl

/-! ### setPc -/

@[simp] theorem State.setPc_regs (s : State) (a : Addr) : (s.setPc a).regs = s.regs := rfl
@[simp] theorem State.setPc_pc (s : State) (a : Addr) : (s.setPc a).pc = a := rfl
@[simp] theorem State.setPc_sp (s : State) (a : Addr) : (s.setPc a).sp = s.sp := rfl
@[simp] theorem State.setPc_z (s : State) (a : Addr) : (s.setPc a).z = s.z := rfl
@[simp] theorem State.setPc_c (s : State) (a : Addr) : (s.setPc a).c = s.c := rfl
@[simp] theorem State.setPc_run (s : State) (a : Addr) : (s.setPc a).run = s.run := rfl
@[simp] theorem State.setPc_fcause (s : State) (a : Addr) : (s.setPc a).fcause = s.fcause := rfl
@[simp] theorem State.setPc_finfo (s : State) (a : Addr) : (s.setPc a).finfo = s.finfo := rfl
@[simp] theorem State.setPc_mem (s : State) (a : Addr) : (s.setPc a).mem = s.mem := rfl

/-! ### setSp -/

@[simp] theorem State.setSp_regs (s : State) (a : Addr) : (s.setSp a).regs = s.regs := rfl
@[simp] theorem State.setSp_pc (s : State) (a : Addr) : (s.setSp a).pc = s.pc := rfl
@[simp] theorem State.setSp_sp (s : State) (a : Addr) : (s.setSp a).sp = a := rfl
@[simp] theorem State.setSp_z (s : State) (a : Addr) : (s.setSp a).z = s.z := rfl
@[simp] theorem State.setSp_c (s : State) (a : Addr) : (s.setSp a).c = s.c := rfl
@[simp] theorem State.setSp_run (s : State) (a : Addr) : (s.setSp a).run = s.run := rfl
@[simp] theorem State.setSp_fcause (s : State) (a : Addr) : (s.setSp a).fcause = s.fcause := rfl
@[simp] theorem State.setSp_finfo (s : State) (a : Addr) : (s.setSp a).finfo = s.finfo := rfl
@[simp] theorem State.setSp_mem (s : State) (a : Addr) : (s.setSp a).mem = s.mem := rfl

/-! ### setZ -/

@[simp] theorem State.setZ_regs (s : State) (b : Bool) : (s.setZ b).regs = s.regs := rfl
@[simp] theorem State.setZ_pc (s : State) (b : Bool) : (s.setZ b).pc = s.pc := rfl
@[simp] theorem State.setZ_sp (s : State) (b : Bool) : (s.setZ b).sp = s.sp := rfl
@[simp] theorem State.setZ_z (s : State) (b : Bool) : (s.setZ b).z = b := rfl
@[simp] theorem State.setZ_c (s : State) (b : Bool) : (s.setZ b).c = s.c := rfl
@[simp] theorem State.setZ_run (s : State) (b : Bool) : (s.setZ b).run = s.run := rfl
@[simp] theorem State.setZ_fcause (s : State) (b : Bool) : (s.setZ b).fcause = s.fcause := rfl
@[simp] theorem State.setZ_finfo (s : State) (b : Bool) : (s.setZ b).finfo = s.finfo := rfl
@[simp] theorem State.setZ_mem (s : State) (b : Bool) : (s.setZ b).mem = s.mem := rfl

/-! ### setC -/

@[simp] theorem State.setC_regs (s : State) (b : Bool) : (s.setC b).regs = s.regs := rfl
@[simp] theorem State.setC_pc (s : State) (b : Bool) : (s.setC b).pc = s.pc := rfl
@[simp] theorem State.setC_sp (s : State) (b : Bool) : (s.setC b).sp = s.sp := rfl
@[simp] theorem State.setC_z (s : State) (b : Bool) : (s.setC b).z = s.z := rfl
@[simp] theorem State.setC_c (s : State) (b : Bool) : (s.setC b).c = b := rfl
@[simp] theorem State.setC_run (s : State) (b : Bool) : (s.setC b).run = s.run := rfl
@[simp] theorem State.setC_fcause (s : State) (b : Bool) : (s.setC b).fcause = s.fcause := rfl
@[simp] theorem State.setC_finfo (s : State) (b : Bool) : (s.setC b).finfo = s.finfo := rfl
@[simp] theorem State.setC_mem (s : State) (b : Bool) : (s.setC b).mem = s.mem := rfl

/-! ### setZC -/

@[simp] theorem State.setZC_regs (s : State) (b b2 : Bool) : (s.setZC b b2).regs = s.regs := rfl
@[simp] theorem State.setZC_pc (s : State) (b b2 : Bool) : (s.setZC b b2).pc = s.pc := rfl
@[simp] theorem State.setZC_sp (s : State) (b b2 : Bool) : (s.setZC b b2).sp = s.sp := rfl
@[simp] theorem State.setZC_z (s : State) (b b2 : Bool) : (s.setZC b b2).z = b := rfl
@[simp] theorem State.setZC_c (s : State) (b b2 : Bool) : (s.setZC b b2).c = b2 := rfl
@[simp] theorem State.setZC_run (s : State) (b b2 : Bool) : (s.setZC b b2).run = s.run := rfl
@[simp] theorem State.setZC_fcause (s : State) (b b2 : Bool) : (s.setZC b b2).fcause = s.fcause := rfl
@[simp] theorem State.setZC_finfo (s : State) (b b2 : Bool) : (s.setZC b b2).finfo = s.finfo := rfl
@[simp] theorem State.setZC_mem (s : State) (b b2 : Bool) : (s.setZC b b2).mem = s.mem := rfl

/-! ### setRun -/

@[simp] theorem State.setRun_regs (s : State) (r : RunState) : (s.setRun r).regs = s.regs := rfl
@[simp] theorem State.setRun_pc (s : State) (r : RunState) : (s.setRun r).pc = s.pc := rfl
@[simp] theorem State.setRun_sp (s : State) (r : RunState) : (s.setRun r).sp = s.sp := rfl
@[simp] theorem State.setRun_z (s : State) (r : RunState) : (s.setRun r).z = s.z := rfl
@[simp] theorem State.setRun_c (s : State) (r : RunState) : (s.setRun r).c = s.c := rfl
@[simp] theorem State.setRun_run (s : State) (r : RunState) : (s.setRun r).run = r := rfl
@[simp] theorem State.setRun_fcause (s : State) (r : RunState) : (s.setRun r).fcause = s.fcause := rfl
@[simp] theorem State.setRun_finfo (s : State) (r : RunState) : (s.setRun r).finfo = s.finfo := rfl
@[simp] theorem State.setRun_mem (s : State) (r : RunState) : (s.setRun r).mem = s.mem := rfl

/-! ### setFault -/

@[simp] theorem State.setFault_regs (s : State) (u v : Byte) : (s.setFault u v).regs = s.regs := rfl
@[simp] theorem State.setFault_pc (s : State) (u v : Byte) : (s.setFault u v).pc = s.pc := rfl
@[simp] theorem State.setFault_sp (s : State) (u v : Byte) : (s.setFault u v).sp = s.sp := rfl
@[simp] theorem State.setFault_z (s : State) (u v : Byte) : (s.setFault u v).z = s.z := rfl
@[simp] theorem State.setFault_c (s : State) (u v : Byte) : (s.setFault u v).c = s.c := rfl
@[simp] theorem State.setFault_run (s : State) (u v : Byte) : (s.setFault u v).run = s.run := rfl
@[simp] theorem State.setFault_fcause (s : State) (u v : Byte) : (s.setFault u v).fcause = u := rfl
@[simp] theorem State.setFault_finfo (s : State) (u v : Byte) : (s.setFault u v).finfo = v := rfl
@[simp] theorem State.setFault_mem (s : State) (u v : Byte) : (s.setFault u v).mem = s.mem := rfl

/-! ### store -/

@[simp] theorem State.store_regs (s : State) (a : Addr) (v : Byte) : (s.store a v).regs = s.regs := rfl
@[simp] theorem State.store_pc (s : State) (a : Addr) (v : Byte) : (s.store a v).pc = s.pc := rfl
@[simp] theorem State.store_sp (s : State) (a : Addr) (v : Byte) : (s.store a v).sp = s.sp := rfl
@[simp] theorem State.store_z (s : State) (a : Addr) (v : Byte) : (s.store a v).z = s.z := rfl
@[simp] theorem State.store_c (s : State) (a : Addr) (v : Byte) : (s.store a v).c = s.c := rfl
@[simp] theorem State.store_run (s : State) (a : Addr) (v : Byte) : (s.store a v).run = s.run := rfl
@[simp] theorem State.store_fcause (s : State) (a : Addr) (v : Byte) : (s.store a v).fcause = s.fcause := rfl
@[simp] theorem State.store_finfo (s : State) (a : Addr) (v : Byte) : (s.store a v).finfo = s.finfo := rfl
@[simp] theorem State.store_mem (s : State) (a : Addr) (v : Byte) : (s.store a v).mem = s.mem.write a v := rfl

/-! ### advance -/

@[simp] theorem State.advance_regs (s : State) (n : Nat) : (s.advance n).regs = s.regs := rfl
@[simp] theorem State.advance_pc (s : State) (n : Nat) : (s.advance n).pc = s.pc + BitVec.ofNat 16 n := rfl
@[simp] theorem State.advance_sp (s : State) (n : Nat) : (s.advance n).sp = s.sp := rfl
@[simp] theorem State.advance_z (s : State) (n : Nat) : (s.advance n).z = s.z := rfl
@[simp] theorem State.advance_c (s : State) (n : Nat) : (s.advance n).c = s.c := rfl
@[simp] theorem State.advance_run (s : State) (n : Nat) : (s.advance n).run = s.run := rfl
@[simp] theorem State.advance_fcause (s : State) (n : Nat) : (s.advance n).fcause = s.fcause := rfl
@[simp] theorem State.advance_finfo (s : State) (n : Nat) : (s.advance n).finfo = s.finfo := rfl
@[simp] theorem State.advance_mem (s : State) (n : Nat) : (s.advance n).mem = s.mem := rfl

/-! ### writeMoved -/

@[simp] theorem State.writeMoved_regs (s : State) (r : Reg) (v : Byte) : (s.writeMoved r v).regs = s.regs.set r v := rfl
@[simp] theorem State.writeMoved_pc (s : State) (r : Reg) (v : Byte) : (s.writeMoved r v).pc = s.pc := rfl
@[simp] theorem State.writeMoved_sp (s : State) (r : Reg) (v : Byte) : (s.writeMoved r v).sp = s.sp := rfl
@[simp] theorem State.writeMoved_z (s : State) (r : Reg) (v : Byte) : (s.writeMoved r v).z = zeroFlag v := rfl
@[simp] theorem State.writeMoved_c (s : State) (r : Reg) (v : Byte) : (s.writeMoved r v).c = s.c := rfl
@[simp] theorem State.writeMoved_run (s : State) (r : Reg) (v : Byte) : (s.writeMoved r v).run = s.run := rfl
@[simp] theorem State.writeMoved_fcause (s : State) (r : Reg) (v : Byte) : (s.writeMoved r v).fcause = s.fcause := rfl
@[simp] theorem State.writeMoved_finfo (s : State) (r : Reg) (v : Byte) : (s.writeMoved r v).finfo = s.finfo := rfl
@[simp] theorem State.writeMoved_mem (s : State) (r : Reg) (v : Byte) : (s.writeMoved r v).mem = s.mem := rfl

/-! ### writeAlu -/

@[simp] theorem State.writeAlu_regs (s : State) (r : Reg) (o : AluOut) : (s.writeAlu r o).regs = s.regs.set r o.result := rfl
@[simp] theorem State.writeAlu_pc (s : State) (r : Reg) (o : AluOut) : (s.writeAlu r o).pc = s.pc := rfl
@[simp] theorem State.writeAlu_sp (s : State) (r : Reg) (o : AluOut) : (s.writeAlu r o).sp = s.sp := rfl
@[simp] theorem State.writeAlu_z (s : State) (r : Reg) (o : AluOut) : (s.writeAlu r o).z = o.zero := rfl
@[simp] theorem State.writeAlu_c (s : State) (r : Reg) (o : AluOut) : (s.writeAlu r o).c = o.carry := rfl
@[simp] theorem State.writeAlu_run (s : State) (r : Reg) (o : AluOut) : (s.writeAlu r o).run = s.run := rfl
@[simp] theorem State.writeAlu_fcause (s : State) (r : Reg) (o : AluOut) : (s.writeAlu r o).fcause = s.fcause := rfl
@[simp] theorem State.writeAlu_finfo (s : State) (r : Reg) (o : AluOut) : (s.writeAlu r o).finfo = s.finfo := rfl
@[simp] theorem State.writeAlu_mem (s : State) (r : Reg) (o : AluOut) : (s.writeAlu r o).mem = s.mem := rfl

/-! ### Fault entry and reset -/

@[simp] theorem takeFault_regs (f : HwFault) (start : Addr) (s : State) : (takeFault f start s).regs = s.regs := rfl
@[simp] theorem takeFault_pc (f : HwFault) (start : Addr) (s : State) : (takeFault f start s).pc = start := rfl
@[simp] theorem takeFault_sp (f : HwFault) (start : Addr) (s : State) : (takeFault f start s).sp = s.sp := rfl
@[simp] theorem takeFault_z (f : HwFault) (start : Addr) (s : State) : (takeFault f start s).z = s.z := rfl
@[simp] theorem takeFault_c (f : HwFault) (start : Addr) (s : State) : (takeFault f start s).c = s.c := rfl
@[simp] theorem takeFault_run (f : HwFault) (start : Addr) (s : State) : (takeFault f start s).run = .faulted := rfl
@[simp] theorem takeFault_fcause (f : HwFault) (start : Addr) (s : State) : (takeFault f start s).fcause = f.code := rfl
@[simp] theorem takeFault_finfo (f : HwFault) (start : Addr) (s : State) : (takeFault f start s).finfo = f.info := rfl
@[simp] theorem takeFault_mem (f : HwFault) (start : Addr) (s : State) : (takeFault f start s).mem = s.mem := rfl

@[simp] theorem State.resetBy_regs (v : ResetValues) (s : State) : (s.resetBy v).regs = v.regs := rfl
@[simp] theorem State.resetBy_pc (v : ResetValues) (s : State) : (s.resetBy v).pc = 0x0000 := rfl
@[simp] theorem State.resetBy_sp (v : ResetValues) (s : State) : (s.resetBy v).sp = v.sp := rfl
@[simp] theorem State.resetBy_z (v : ResetValues) (s : State) : (s.resetBy v).z = v.z := rfl
@[simp] theorem State.resetBy_c (v : ResetValues) (s : State) : (s.resetBy v).c = v.c := rfl
@[simp] theorem State.resetBy_run (v : ResetValues) (s : State) : (s.resetBy v).run = .running := rfl
@[simp] theorem State.resetBy_fcause (v : ResetValues) (s : State) : (s.resetBy v).fcause = 0 := rfl
@[simp] theorem State.resetBy_finfo (v : ResetValues) (s : State) : (s.resetBy v).finfo = 0 := rfl
@[simp] theorem State.resetBy_mem (v : ResetValues) (s : State) : (s.resetBy v).mem = s.mem := rfl

/-! ### Registers -/

@[simp] theorem RegFile.get_set_same (x : RegFile) (r : Reg) (v : Byte) : (x.set r v).get r = v := by
  cases r <;> rfl

theorem RegFile.get_set_other (x : RegFile) {r r' : Reg} (v : Byte) (h : r' ≠ r) :
    (x.set r v).get r' = x.get r' := by
  cases r <;> cases r' <;> first | rfl | exact absurd rfl h

/-- Two register files that read alike are equal. -/
theorem RegFile.ext_get {x y : RegFile} (h : ∀ r, x.get r = y.get r) : x = y := by
  cases x; cases y
  have ha := h .a; have hb := h .b; have hc := h .c; have hd := h .d
  simp only [RegFile.get] at ha hb hc hd
  subst ha hb hc hd
  rfl

theorem State.reg_eq (s : State) (r : Reg) : s.reg r = s.regs.get r := rfl

theorem State.load_eq (s : State) (a : Addr) : s.load a = s.mem.read a := rfl

/-- Two states with equal fields are equal. -/
theorem State.ext_fields {s t : State} (hr : s.regs = t.regs) (hp : s.pc = t.pc) (hs : s.sp = t.sp)
    (hz : s.z = t.z) (hc : s.c = t.c) (hu : s.run = t.run) (hf : s.fcause = t.fcause)
    (hi : s.finfo = t.finfo) (hm : s.mem = t.mem) : s = t := by
  cases s; cases t
  simp only at hr hp hs hz hc hu hf hi hm
  subst hr hp hs hz hc hu hf hi hm
  rfl

end Sys2Proof.Machine
end

