-- ==== Sys2Proof/Laws/Ops.lean ====
section
/-! SUPPORT. What each shared operation can do, once: the stack, the fetch, the operand decoders and the
shapes an instruction of each format runs in. -/

namespace Sys2Proof.Machine

/-! ### Stack and fetch -/

/-- What `push16` leaves: SP two lower, the high byte above the low byte (R190). -/
theorem State.push16_eq (s : State) (v : Addr) :
    s.push16 v =
      { s with
        sp := s.sp - 1 - 1
        mem := (s.mem.write (s.sp - 1) (hiByte v)).write (s.sp - 1 - 1) (loByte v) } := rfl

/-- What `pop16` gives: the pair at SP, and SP two higher (R191). -/
theorem State.pop16_eq (s : State) :
    s.pop16 = (word16 (s.load (s.sp + 1)) (s.load s.sp), { s with sp := s.sp + 1 + 1 }) := rfl

/-- What `fetch8` gives: the byte at the PC, and the PC one higher (R121). -/
theorem State.fetch8_eq (s : State) : s.fetch8 = (s.load s.pc, { s with pc := s.pc + 1 }) := rfl

/-- Every byte but the two pushed reads as before (R190). -/
theorem State.push16_read_other (s : State) (v a : Addr) (h1 : a ≠ s.sp - 1) (h2 : a ≠ s.sp - 1 - 1) :
    (s.push16 v).load a = s.load a := by
  rw [State.push16_eq]
  simp only [State.load_eq]
  rw [Memory.read_write_other _ _ h2, Memory.read_write_other _ _ h1]

/-! ### Operands -/

@[simp] theorem regidx_index (r : Reg) : regidx r.index = .ok r := by cases r <;> rfl

/-- `regidx` answers a register exactly for its index byte (R124). -/
theorem regidx_ok_iff {b : Byte} {r : Reg} : regidx b = .ok r ↔ b = r.index := by
  constructor
  · intro h
    unfold regidx at h
    split at h
    all_goals
      first
      | (cases h; exact BitVec.eq_of_toNat_eq ‹_›)
      | cases h
  · rintro rfl
    exact regidx_index r

/-- `regidx` raises IllegalRegister exactly above 3 (R124). -/
theorem regidx_error_iff {b : Byte} {f : HwFault} :
    regidx b = .error f ↔ legalIndex b = false ∧ f = .illegalRegister b := by
  unfold regidx legalIndex
  split <;> rename_i h
  · simp [h]
  · simp [h]
  · simp [h]
  · simp [h]
  · have : ¬ b.toNat ≤ 3 := by
      intro hle
      have : b.toNat = 0 ∨ b.toNat = 1 ∨ b.toNat = 2 ∨ b.toNat = 3 := by omega
      rcases this with e | e | e | e <;> simp_all
    simp [this, eq_comm]

/-- A legal index byte names a register. -/
theorem regidx_of_legal {b : Byte} (h : legalIndex b = true) : ∃ r, regidx b = .ok r ∧ b = r.index := by
  cases hr : regidx b with
  | ok r => exact ⟨r, rfl, regidx_ok_iff.mp hr⟩
  | error f => rw [(regidx_error_iff.mp hr).1] at h; cases h

/-- What the register pair decoder can answer (R125). -/
theorem operandsRR_cases (b1 b2 : Byte) :
    (∃ dst src, b1 = Reg.index dst ∧ b2 = Reg.index src ∧ operandsRR b1 b2 = .ok (dst, src)) ∨
      (legalIndex b1 = false ∧ operandsRR b1 b2 = .error (.illegalRegister b1)) ∨
      (legalIndex b1 = true ∧ legalIndex b2 = false ∧
        operandsRR b1 b2 = .error (.illegalRegister b2)) := by
  cases h1 : legalIndex b1 with
  | false =>
    exact .inr (.inl ⟨rfl, by simp [operandsRR, regidx_error_iff.mpr ⟨h1, rfl⟩]⟩)
  | true =>
    obtain ⟨dst, hd, rfl⟩ := regidx_of_legal h1
    cases h2 : legalIndex b2 with
    | false => exact .inr (.inr ⟨rfl, rfl, by simp [operandsRR, regidx_error_iff.mpr ⟨h2, rfl⟩]⟩)
    | true =>
      obtain ⟨src, hr, rfl⟩ := regidx_of_legal h2
      exact .inl ⟨dst, src, rfl, rfl, by simp [operandsRR]⟩

/-- What the register-immediate decoder can answer (R125). -/
theorem operandsRI_cases (b1 b2 : Byte) :
    (∃ dst, b1 = Reg.index dst ∧ operandsRI b1 b2 = .ok (dst, b2)) ∨
      (legalIndex b1 = false ∧ operandsRI b1 b2 = .error (.illegalRegister b1)) := by
  cases h1 : legalIndex b1 with
  | false => exact .inr ⟨rfl, by simp [operandsRI, regidx_error_iff.mpr ⟨h1, rfl⟩]⟩
  | true =>
    obtain ⟨dst, hd, rfl⟩ := regidx_of_legal h1
    exact .inl ⟨dst, rfl, by simp [operandsRI]⟩

/-! ### The shapes of the formats -/

/-- With two register names, a register pair instruction is its lines. -/
theorem runRR_index (dst src : Reg) (s : State) (body : Reg → Reg → State → Except HwFault State) :
    runRR dst.index src.index s body = settle s.pc (s.advance 3) (body dst src (s.advance 3)) := by
  simp [runRR, operandsRR]

/-- With a register name, a register-immediate instruction is its lines. -/
theorem runRI_index (dst : Reg) (imm : Byte) (s : State) (body : Reg → Byte → State → Except HwFault State) :
    runRI dst.index imm s body = settle s.pc (s.advance 3) (body dst imm (s.advance 3)) := by
  simp [runRI, operandsRI]

/-- What a register pair instruction can do: its lines, or IllegalRegister for byte 1, then byte 2. -/
theorem runRR_cases (b1 b2 : Byte) (s : State) (body : Reg → Reg → State → Except HwFault State) :
    (∃ dst src, b1 = Reg.index dst ∧ b2 = Reg.index src ∧
        runRR b1 b2 s body = settle s.pc (s.advance 3) (body dst src (s.advance 3))) ∨
      (legalIndex b1 = false ∧
        runRR b1 b2 s body = .next (takeFault (.illegalRegister b1) s.pc (s.advance 3))) ∨
      (legalIndex b1 = true ∧ legalIndex b2 = false ∧
        runRR b1 b2 s body = .next (takeFault (.illegalRegister b2) s.pc (s.advance 3))) := by
  rcases operandsRR_cases b1 b2 with ⟨dst, src, h1, h2, h⟩ | ⟨h1, h⟩ | ⟨h1, h2, h⟩
  · exact .inl ⟨dst, src, h1, h2, by simp [runRR, h]⟩
  · exact .inr (.inl ⟨h1, by simp [runRR, h, settle]⟩)
  · exact .inr (.inr ⟨h1, h2, by simp [runRR, h, settle]⟩)

/-- What a register-immediate instruction can do: its lines, or IllegalRegister for byte 1. -/
theorem runRI_cases (b1 b2 : Byte) (s : State) (body : Reg → Byte → State → Except HwFault State) :
    (∃ dst, b1 = Reg.index dst ∧
        runRI b1 b2 s body = settle s.pc (s.advance 3) (body dst b2 (s.advance 3))) ∨
      (legalIndex b1 = false ∧
        runRI b1 b2 s body = .next (takeFault (.illegalRegister b1) s.pc (s.advance 3))) := by
  rcases operandsRI_cases b1 b2 with ⟨dst, h1, h⟩ | ⟨h1, h⟩
  · exact .inl ⟨dst, h1, by simp [runRI, h]⟩
  · exact .inr ⟨h1, by simp [runRI, h, settle]⟩

/-- A state that fault entry left records its fault. -/
@[simp] theorem recordedFault_takeFault (f : HwFault) (a : Addr) (s : State) :
    (takeFault f a s).recordedFault = some f := by cases f <;> rfl

/-- A state that is not Faulted records no fault. -/
theorem recordedFault_of_not_faulted {s : State} (h : s.run ≠ .faulted) : s.recordedFault = none := by
  unfold State.recordedFault
  cases hr : s.run <;> first | rfl | exact absurd hr h

/-- Fault entry after the operand fetches puts the PC back, so it changes only the run state and the
fault status (R234). -/
theorem takeFault_advance (f : HwFault) (s : State) (n : Nat) :
    takeFault f s.pc (s.advance n) = takeFault f s.pc s := rfl

end Sys2Proof.Machine
end

