-- ==== Sys2Proof/Laws/Step.lean ====
section
/-! SUPPORT. What the fetch and the step can do, once. -/

namespace Sys2Proof.Machine

/-- What the fetch can answer: IllegalOpcode with the opcode byte, or the instruction its name selects,
with the two bytes after the opcode byte as its operands where its format has any (R122, R123). -/
theorem fetchInstr_cases (opc : OpcodeMap) (s : State) :
    (opc.lookup (s.load s.pc) = none ∧
        fetchInstr opc s = .error (.illegalOpcode (s.load s.pc))) ∨
      ∃ m, opc.lookup (s.load s.pc) = some m ∧
        fetchInstr opc s = .ok (Instr.ofOperands m (s.load (s.pc + 1)) (s.load (s.pc + 1 + 1))) := by
  unfold fetchInstr
  simp only [State.fetch8_eq]
  cases h : opc.lookup (s.load s.pc) with
  | none => exact .inl ⟨rfl, rfl⟩
  | some m =>
    refine .inr ⟨m, rfl, ?_⟩
    cases m <;> rfl

/-- The name of the instruction that the operands are given to. -/
@[simp] theorem Instr.mnemonic_ofOperands (m : Mnemonic) (b1 b2 : Byte) :
    (Instr.ofOperands m b1 b2).mnemonic = m := by cases m <;> rfl

/-- A Running core that fetches an instruction runs it (R122). -/
theorem stepWith_of_fetch {opc : OpcodeMap} {s : State} {i : Instr} (hr : s.run = .running)
    (hf : fetchInstr opc s = .ok i) : stepWith opc s = exec i s := by
  simp [stepWith, hr, hf]

/-- A Running core that fetches an illegal opcode takes fault entry (R122, R234). -/
theorem stepWith_of_illegal {opc : OpcodeMap} {s : State} {f : HwFault} (hr : s.run = .running)
    (hf : fetchInstr opc s = .error f) : stepWith opc s = .next (takeFault f s.pc s) := by
  simp [stepWith, hr, hf]

/-- What a step can do: run the fetched instruction, or take fault entry, or, of a core that is not
Running, stop. -/
theorem stepWith_cases (opc : OpcodeMap) (s : State) :
    (s.run = .running ∧ ∃ i, fetchInstr opc s = .ok i ∧ stepWith opc s = exec i s) ∨
      (s.run = .running ∧ ∃ f, fetchInstr opc s = .error f ∧
        stepWith opc s = .next (takeFault f s.pc s)) ∨
      (s.run = .halted ∧ stepWith opc s = .fault .stepWhileHalted) ∨
      (s.run = .faulted ∧ stepWith opc s = .fault (.stepWhileFaulted s.fcause s.finfo)) := by
  cases hr : s.run with
  | running =>
    cases hf : fetchInstr opc s with
    | ok i => exact .inl ⟨rfl, i, rfl, stepWith_of_fetch hr hf⟩
    | error f => exact .inr (.inl ⟨rfl, f, rfl, stepWith_of_illegal hr hf⟩)
  | halted => exact .inr (.inr (.inl ⟨rfl, by simp [stepWith, hr]⟩))
  | faulted => exact .inr (.inr (.inr ⟨rfl, by simp [stepWith, hr]⟩))

end Sys2Proof.Machine
end

