-- ==== Sys2Proof/Laws/Exec.lean ====
section
/-! SUPPORT. What running an instruction can do, once: it always answers a next state, and that state
has one of the shapes of `Effect`. Facts about every instruction follow by cases on it. -/

namespace Sys2Proof.Machine

/-! ### Each arm -/

theorem exec_movRR (rd rs : Byte) (s : State) :
    exec (.movRR rd rs) s = execMovRR rd rs s := rfl

theorem exec_movRI (rd imm : Byte) (s : State) :
    exec (.movRI rd imm) s = execMovRI rd imm s := rfl

theorem exec_addRR (rd rs : Byte) (s : State) :
    exec (.addRR rd rs) s = execAddRR rd rs s := rfl

theorem exec_addRI (rd imm : Byte) (s : State) :
    exec (.addRI rd imm) s = execAddRI rd imm s := rfl

theorem exec_subRR (rd rs : Byte) (s : State) :
    exec (.subRR rd rs) s = execSubRR rd rs s := rfl

theorem exec_subRI (rd imm : Byte) (s : State) :
    exec (.subRI rd imm) s = execSubRI rd imm s := rfl

theorem exec_cmpRR (rd rs : Byte) (s : State) :
    exec (.cmpRR rd rs) s = execCmpRR rd rs s := rfl

theorem exec_cmpRI (rd imm : Byte) (s : State) :
    exec (.cmpRI rd imm) s = execCmpRI rd imm s := rfl

theorem exec_mul (rd rs : Byte) (s : State) :
    exec (.mul rd rs) s = execMul rd rs s := rfl

theorem exec_div (rd rs : Byte) (s : State) :
    exec (.div rd rs) s = execDiv rd rs s := rfl

theorem exec_jmp (target : Addr) (s : State) :
    exec (.jmp target) s = execJmp target s := rfl

theorem exec_jz (target : Addr) (s : State) :
    exec (.jz target) s = execJz target s := rfl

theorem exec_jnz (target : Addr) (s : State) :
    exec (.jnz target) s = execJnz target s := rfl

theorem exec_call (target : Addr) (s : State) :
    exec (.call target) s = execCall target s := rfl

theorem exec_ret (s : State) :
    exec .ret s = execRet s := rfl

theorem exec_hlt (s : State) :
    exec .hlt s = execHlt s := rfl

/-! ### Every instruction -/

/-- The shapes of the state `t` that an instruction `i` leaves from `s`. -/
inductive Effect (i : Instr) (s t : State) : Prop where
  /-- IllegalRegister for one of the instruction's operand bytes (R124, R234). -/
  | illegalRegister (b : Byte) (mem : b ∈ i.operands) (format : i.mnemonic.format = .rr ∨ i.mnemonic.format = .ri)
      (illegal : legalIndex b = false) (eq : t = takeFault (.illegalRegister b) s.pc s)
  /-- DivideByZero (R163, R234). -/
  | divideByZero (dst src : Reg) (instr : i = .div dst.index src.index) (zero : s.reg src = 0)
      (eq : t = takeFault (.divideByZero src.index) s.pc s)
  /-- One register and the flags written, the PC past three bytes (MOV, ADD, SUB, MUL, DIV). -/
  | register (dst : Reg) (v : Byte) (z c : Bool)
      (eq : t = { s with regs := s.regs.set dst v, z := z, c := c, pc := s.pc + 3 })
  /-- The flags written, the PC past three bytes (CMP). -/
  | flags (z c : Bool) (eq : t = { s with z := z, c := c, pc := s.pc + 3 })
  /-- The PC alone (JMP, JZ, JNZ). -/
  | jump (a : Addr) (instr : i.mnemonic ∈ [Mnemonic.jmp, .jz, .jnz]) (eq : t = { s with pc := a })
  /-- The return address pushed, and the PC at the target (CALL). -/
  | call (target : Addr) (instr : i = .call target)
      (eq : t = ((s.advance 3).push16 (s.pc + 3)).setPc target)
  /-- The return address popped into the PC (RET). -/
  | ret (instr : i = .ret)
      (eq : t = { s with pc := word16 (s.load (s.sp + 1)) (s.load s.sp), sp := s.sp + 1 + 1 })
  /-- Halted, and the PC past one byte (HLT). -/
  | halt (instr : i = .hlt) (eq : t = { s with run := .halted, pc := s.pc + 1 })

/-- A register pair instruction is IllegalRegister or its lines. -/
theorem effect_of_runRR {i : Instr} {s t : State} {b1 b2 : Byte}
    {body : Reg → Reg → State → Except HwFault State}
    (hf : i.mnemonic.format = .rr) (h1 : b1 ∈ i.operands) (h2 : b2 ∈ i.operands)
    (h : runRR b1 b2 s body = .next t)
    (lines : ∀ dst src, b1 = Reg.index dst → b2 = Reg.index src →
      settle s.pc (s.advance 3) (body dst src (s.advance 3)) = .next t → Effect i s t) :
    Effect i s t := by
  rcases runRR_cases b1 b2 s body with ⟨dst, src, e1, e2, e⟩ | ⟨hl, e⟩ | ⟨_, hl, e⟩ <;> rw [e] at h
  · exact lines dst src e1 e2 h
  · cases h
    exact .illegalRegister b1 h1 (.inl hf) hl rfl
  · cases h
    exact .illegalRegister b2 h2 (.inl hf) hl rfl

/-- A register-immediate instruction is IllegalRegister or its lines. -/
theorem effect_of_runRI {i : Instr} {s t : State} {b1 b2 : Byte}
    {body : Reg → Byte → State → Except HwFault State}
    (hf : i.mnemonic.format = .ri) (h1 : b1 ∈ i.operands)
    (h : runRI b1 b2 s body = .next t)
    (lines : ∀ dst, settle s.pc (s.advance 3) (body dst b2 (s.advance 3)) = .next t → Effect i s t) :
    Effect i s t := by
  rcases runRI_cases b1 b2 s body with ⟨dst, _, e⟩ | ⟨hl, e⟩ <;> rw [e] at h
  · exact lines dst h
  · cases h
    exact .illegalRegister b1 h1 (.inr hf) hl rfl

/-- What any instruction can do. -/
theorem exec_effect {i : Instr} {s t : State} (h : exec i s = .next t) : Effect i s t := by
  cases i with
  | movRR rd rs =>
    simp only [exec, execMovRR] at h
    refine effect_of_runRR rfl (by simp [Instr.operands]) (by simp [Instr.operands])
      h fun dst src _ _ hl => ?_
    cases hl
    exact .register dst _ _ _ rfl
  | movRI rd imm =>
    simp only [exec, execMovRI] at h
    refine effect_of_runRI rfl (by simp [Instr.operands]) h
      fun dst hl => ?_
    cases hl
    exact .register dst _ _ _ rfl
  | addRR rd rs =>
    simp only [exec, execAddRR] at h
    refine effect_of_runRR rfl (by simp [Instr.operands]) (by simp [Instr.operands])
      h fun dst src _ _ hl => ?_
    cases hl
    exact .register dst _ _ _ rfl
  | addRI rd imm =>
    simp only [exec, execAddRI] at h
    refine effect_of_runRI rfl (by simp [Instr.operands]) h
      fun dst hl => ?_
    cases hl
    exact .register dst _ _ _ rfl
  | subRR rd rs =>
    simp only [exec, execSubRR] at h
    refine effect_of_runRR rfl (by simp [Instr.operands]) (by simp [Instr.operands])
      h fun dst src _ _ hl => ?_
    cases hl
    exact .register dst _ _ _ rfl
  | subRI rd imm =>
    simp only [exec, execSubRI] at h
    refine effect_of_runRI rfl (by simp [Instr.operands]) h
      fun dst hl => ?_
    cases hl
    exact .register dst _ _ _ rfl
  | cmpRR rd rs =>
    simp only [exec, execCmpRR] at h
    refine effect_of_runRR rfl (by simp [Instr.operands]) (by simp [Instr.operands])
      h fun dst src _ _ hl => ?_
    cases hl
    exact .flags _ _ rfl
  | cmpRI rd imm =>
    simp only [exec, execCmpRI] at h
    refine effect_of_runRI rfl (by simp [Instr.operands]) h
      fun dst hl => ?_
    cases hl
    exact .flags _ _ rfl
  | mul rd rs =>
    simp only [exec, execMul] at h
    refine effect_of_runRR rfl (by simp [Instr.operands]) (by simp [Instr.operands])
      h fun dst src _ _ hl => ?_
    cases hl
    exact .register dst _ _ _ rfl
  | div rd rs =>
    simp only [exec, execDiv] at h
    refine effect_of_runRR rfl (by simp [Instr.operands]) (by simp [Instr.operands])
      h fun dst src e1 e2 hl => ?_
    subst e1 e2
    cases hd : aluDiv ((s.advance 3).reg dst) ((s.advance 3).reg src) with
    | none =>
      simp only [hd, settle] at hl
      cases hl
      exact .divideByZero dst src rfl (BitVec.eq_of_toNat_eq ((aluDiv_none_iff _ _).mp hd)) rfl
    | some q =>
      simp only [hd, settle] at hl
      cases hl
      exact .register dst _ _ _ rfl
  | jmp target =>
    cases h
    exact .jump target (by simp [Instr.mnemonic]) rfl
  | jz target =>
    have h' : (if s.z then (s.advance 3).setPc target else s.advance 3) = t := by
      injection (show Host.Outcome.next _ = _ from h)
    subst h'
    cases s.z
    · exact .jump (s.pc + 3) (by simp [Instr.mnemonic]) rfl
    · exact .jump target (by simp [Instr.mnemonic]) rfl
  | jnz target =>
    have h' : (if s.z then s.advance 3 else (s.advance 3).setPc target) = t := by
      injection (show Host.Outcome.next _ = _ from h)
    subst h'
    cases s.z
    · exact .jump target (by simp [Instr.mnemonic]) rfl
    · exact .jump (s.pc + 3) (by simp [Instr.mnemonic]) rfl
  | call target =>
    cases h
    exact .call target rfl rfl
  | ret =>
    cases h
    exact .ret rfl rfl
  | hlt =>
    cases h
    exact .halt rfl rfl

/-- What ends an instruction is always a next state. -/
theorem settle_next (start : Addr) (u : State) (r : Except HwFault State) :
    ∃ t, settle start u r = .next t := by
  cases r with
  | ok t => exact ⟨t, rfl⟩
  | error f => exact ⟨takeFault f start u, rfl⟩

/-- Every instruction answers a next state: none faults in the sense of `Fault`, none is refused (R129). -/
theorem exec_next (i : Instr) (s : State) : ∃ t, exec i s = .next t := by
  cases i with
  | movRR rd rs => exact settle_next _ _ _
  | movRI rd imm => exact settle_next _ _ _
  | addRR rd rs => exact settle_next _ _ _
  | addRI rd imm => exact settle_next _ _ _
  | subRR rd rs => exact settle_next _ _ _
  | subRI rd imm => exact settle_next _ _ _
  | cmpRR rd rs => exact settle_next _ _ _
  | cmpRI rd imm => exact settle_next _ _ _
  | mul rd rs => exact settle_next _ _ _
  | div rd rs => exact settle_next _ _ _
  | jmp target => exact ⟨_, rfl⟩
  | jz target => exact ⟨_, rfl⟩
  | jnz target => exact ⟨_, rfl⟩
  | call target => exact ⟨_, rfl⟩
  | ret => exact ⟨_, rfl⟩
  | hlt => exact ⟨_, rfl⟩

end Sys2Proof.Machine
end

