-- ==== Sys2Proof/Laws/PerInstr.lean ====
section
/-! SUPPORT. A fact about every instruction as syntax, one lemma per constructor: its encoding begins with
its opcode byte and has the length its opcode fixes (30_encoding.md R80, R81). -/

namespace Sys2Proof.Laws.EncodingShape

/-- The encoding is the opcode byte and then `length - 1` operand bytes, under every opcode map; the
length is 1 for format N and 3 for the others. -/
def Statement (i : Instr) : Prop :=
  ∀ opc : OpcodeMap,
    (encodeWith opc i).head? = some (opc.code i.mnemonic) ∧
      (encodeWith opc i).length = i.length ∧
      i.length = if i.mnemonic.format = .n then 1 else 3

theorem movRR (rd rs : Byte) : Statement (.movRR rd rs) := fun _ => ⟨rfl, rfl, rfl⟩

theorem movRI (rd imm : Byte) : Statement (.movRI rd imm) := fun _ => ⟨rfl, rfl, rfl⟩

theorem addRR (rd rs : Byte) : Statement (.addRR rd rs) := fun _ => ⟨rfl, rfl, rfl⟩

theorem addRI (rd imm : Byte) : Statement (.addRI rd imm) := fun _ => ⟨rfl, rfl, rfl⟩

theorem subRR (rd rs : Byte) : Statement (.subRR rd rs) := fun _ => ⟨rfl, rfl, rfl⟩

theorem subRI (rd imm : Byte) : Statement (.subRI rd imm) := fun _ => ⟨rfl, rfl, rfl⟩

theorem cmpRR (rd rs : Byte) : Statement (.cmpRR rd rs) := fun _ => ⟨rfl, rfl, rfl⟩

theorem cmpRI (rd imm : Byte) : Statement (.cmpRI rd imm) := fun _ => ⟨rfl, rfl, rfl⟩

theorem mul (rd rs : Byte) : Statement (.mul rd rs) := fun _ => ⟨rfl, rfl, rfl⟩

theorem div (rd rs : Byte) : Statement (.div rd rs) := fun _ => ⟨rfl, rfl, rfl⟩

theorem jmp (target : Addr) : Statement (.jmp target) := fun _ => ⟨rfl, rfl, rfl⟩

theorem jz (target : Addr) : Statement (.jz target) := fun _ => ⟨rfl, rfl, rfl⟩

theorem jnz (target : Addr) : Statement (.jnz target) := fun _ => ⟨rfl, rfl, rfl⟩

theorem call (target : Addr) : Statement (.call target) := fun _ => ⟨rfl, rfl, rfl⟩

theorem ret : Statement .ret := fun _ => ⟨rfl, rfl, rfl⟩

theorem hlt : Statement .hlt := fun _ => ⟨rfl, rfl, rfl⟩

end Sys2Proof.Laws.EncodingShape
end

