-- ==== Sys2Proof/Laws/Spec.lean ====
section
/-! SUPPORT. What the spec's model step can do, once. -/

namespace Sys2Proof.Safety

open Sys2Proof.Machine

/-- An instruction raises no UninitRead exactly when all it reads has been written (R233). -/
theorem uninitRead_eq_none (m : Marks) (i : Instr) :
    uninitRead m i = none ↔ ∀ l ∈ reads i, m.has l = true := by
  simp [uninitRead]

/-- A state that is not Faulted is a next state (R126). -/
theorem specResult_of_not_faulted {t : State} (m : Marks) (i : Instr) (h : t.run ≠ .faulted) :
    specResult m i t = .next (t, m.after i) := by
  simp [specResult, recordedFault_of_not_faulted h]

/-- A state that fault entry left is a fault with its cause, and the marks stay (R129; log 19). -/
@[simp] theorem specResult_takeFault (m : Marks) (i : Instr) (f : HwFault) (a : Addr) (s : State) :
    specResult m i (takeFault f a s) = .fault (.execution f (takeFault f a s) m) := by
  simp [specResult]

/-- What the spec's model step can do beside the machine's: nothing, of a core that is not Running;
IllegalOpcode; UninitRead for the fetched instruction; or that instruction's own result. -/
theorem specStepWith_cases (opc : OpcodeMap) (s : State) (m : Marks) :
    (s.run ≠ .running ∧ ∃ f, stepWith opc s = .fault f ∧ specStepWith opc s m = .fault (.noStep f)) ∨
      (s.run = .running ∧ ∃ f, fetchInstr opc s = .error f ∧
        stepWith opc s = .next (takeFault f s.pc s) ∧
        specStepWith opc s m = .fault (.execution f (takeFault f s.pc s) m)) ∨
      (s.run = .running ∧ ∃ i t, fetchInstr opc s = .ok i ∧ exec i s = .next t ∧
        stepWith opc s = .next t ∧
        ((∃ l, uninitRead m i = some l ∧ specStepWith opc s m = .fault (.uninitRead l)) ∨
          (uninitRead m i = none ∧ specStepWith opc s m = specResult m i t))) := by
  rcases stepWith_cases opc s with ⟨hr, i, hf, e⟩ | ⟨hr, f, hf, e⟩ | ⟨hr, e⟩ | ⟨hr, e⟩
  · obtain ⟨t, ht⟩ := exec_next i s
    refine .inr (.inr ⟨hr, i, t, hf, ht, e.trans ht, ?_⟩)
    cases hu : uninitRead m i with
    | some l => exact .inl ⟨l, rfl, by simp [specStepWith, hr, hf, hu]⟩
    | none => exact .inr ⟨rfl, by simp [specStepWith, hr, hf, hu, ht]⟩
  · exact .inr (.inl ⟨hr, f, hf, e, by simp [specStepWith, hr, hf]⟩)
  · exact .inl ⟨by simp [hr], _, e, by simp [specStepWith, hr]⟩
  · exact .inl ⟨by simp [hr], _, e, by simp [specStepWith, hr]⟩

end Sys2Proof.Safety
end

