-- ==== Sys2Proof/Tests/Slice0.lean ====
section
/-! SUPPORT. Small tests of the model, and a witness for every statement that has hypotheses. Expected
values are the vectors of 95_test_vectors.md or words written out from 30_encoding.md R82 and R86; a
comment names the source of each group. -/

namespace Sys2Proof.Tests

open Sys2Proof Sys2Proof.Machine Sys2Proof.Safety

/-- A Running core with the given bytes at the given address, and the PC there. -/
def machineAt (pc : Addr) (bytes : List Byte) : State :=
  { State.reset with pc := pc, mem := Memory.writeBytes [] pc bytes }

/-- What a result's next state shows. -/
def see {α : Type} (r : Result) (f : State → α) : Option α :=
  match r with
  | .next t => some (f t)
  | .fault _ => none
  | .refused _ => none

/-- The result register A with the flags. -/
def aluA (t : State) : Byte × Bool × Bool := (t.regs.a, t.z, t.c)

/-- The run state, the fault status and the PC. -/
def faultView (t : State) : RunState × Byte × Byte × Addr := (t.run, t.fcause, t.finfo, t.pc)

/-! ### Well-formedness: an ill-formed term for each check (R83, R89) -/

theorem test_wellFormed_movRR : (Instr.movRR 4 0).wellFormed = false ∧
    (Instr.movRR 3 255).wellFormed = false ∧ (Instr.movRR 3 3).wellFormed = true := by decide

theorem test_wellFormed_movRI : (Instr.movRI 4 0).wellFormed = false ∧
    (Instr.movRI 3 255).wellFormed = true := by decide

theorem test_wellFormed_addRR : (Instr.addRR 4 0).wellFormed = false ∧
    (Instr.addRR 0 4).wellFormed = false := by decide

theorem test_wellFormed_addRI : (Instr.addRI 255 0).wellFormed = false ∧
    (Instr.addRI 0 255).wellFormed = true := by decide

theorem test_wellFormed_subRR : (Instr.subRR 4 0).wellFormed = false ∧
    (Instr.subRR 0 4).wellFormed = false := by decide

theorem test_wellFormed_subRI : (Instr.subRI 4 0).wellFormed = false ∧
    (Instr.subRI 0 4).wellFormed = true := by decide

theorem test_wellFormed_cmpRR : (Instr.cmpRR 4 0).wellFormed = false ∧
    (Instr.cmpRR 0 4).wellFormed = false := by decide

theorem test_wellFormed_cmpRI : (Instr.cmpRI 4 0).wellFormed = false ∧
    (Instr.cmpRI 0 4).wellFormed = true := by decide

theorem test_wellFormed_mul : (Instr.mul 4 0).wellFormed = false ∧
    (Instr.mul 0 4).wellFormed = false := by decide

theorem test_wellFormed_div : (Instr.div 4 0).wellFormed = false ∧
    (Instr.div 0 4).wellFormed = false := by decide

/-! ### Decoding: each constructor from a word written out bit by bit (R82, R86) -/

theorem test_decode_movRR :
    decode [0b00000001, 0b00000000, 0b00000001] = .ok (.movRR 0 1, []) := rfl

theorem test_decode_movRI :
    decode [0b00000010, 0b00000011, 0b11111111] = .ok (.movRI 3 255, []) := rfl

theorem test_decode_addRR :
    decode [0b00000011, 0b00000010, 0b00000001] = .ok (.addRR 2 1, []) := rfl

theorem test_decode_addRI :
    decode [0b00000100, 0b00000000, 0b00001010] = .ok (.addRI 0 10, []) := rfl

theorem test_decode_subRR :
    decode [0b00000101, 0b00000001, 0b00000011] = .ok (.subRR 1 3, []) := rfl

theorem test_decode_subRI :
    decode [0b00000110, 0b00000010, 0b10000000] = .ok (.subRI 2 128, []) := rfl

theorem test_decode_cmpRR :
    decode [0b00000111, 0b00000011, 0b00000000] = .ok (.cmpRR 3 0, []) := rfl

theorem test_decode_cmpRI :
    decode [0b00001000, 0b00000001, 0b00000111] = .ok (.cmpRI 1 7, []) := rfl

theorem test_decode_mul :
    decode [0b00001001, 0b00000000, 0b00000001] = .ok (.mul 0 1, []) := rfl

theorem test_decode_div :
    decode [0b00001010, 0b00000001, 0b00000010] = .ok (.div 1 2, []) := rfl

theorem test_decode_jmp :
    decode [0b00001011, 0b00110100, 0b00010010] = .ok (.jmp 0x1234, []) := rfl

theorem test_decode_jz :
    decode [0b00001100, 0b00010000, 0b00000000] = .ok (.jz 0x0010, []) := rfl

theorem test_decode_jnz :
    decode [0b00001101, 0b00000000, 0b10000000] = .ok (.jnz 0x8000, []) := rfl

theorem test_decode_call :
    decode [0b00001110, 0b01000000, 0b00000000, 0b00001111] = .ok (.call 0x0040, [0x0F]) := rfl

theorem test_decode_ret : decode [0b00001111, 0b00010000] = .ok (.ret, [0x10]) := rfl

theorem test_decode_hlt : decode [0b00010000] = .ok (.hlt, []) := rfl

/-- R88: the bytes just outside the opcode range, and the ends of the byte stream. -/
theorem test_decode_rejects :
    decode [0x00, 1, 2] = .error (.illegalOpcode 0x00) ∧ decode [0x11] = .error (.illegalOpcode 0x11) ∧
    decode [] = .error .noOpcode ∧ decode [0x0B, 0x34] = .error (.truncated .jmp) :=
  ⟨rfl, rfl, rfl, rfl⟩

/-- R82, R85: the words of 95_test_vectors.md V-CALL 1, V-CMP 6 and V-HLT 1. -/
theorem test_encode : encode (.call 0x0040) = [0x0E, 0x40, 0x00] ∧
    encode (.cmpRI 3 255) = [0x08, 0x03, 0xFF] ∧ encode .hlt = [0x10] := by decide

theorem test_decodeTableWord : decodeTableWord 24 0x12340B = some (.jmp 0x1234) ∧
    decodeTableWord 8 0x03 = some (.addRR 0 0) ∧ decodeTableWord 8 0x11 = none := by decide

theorem test_withFetchWord :
    see (step (State.reset.withFetchWord 24 0x12340B)) (fun t => t.pc) = some 0x1234 := by decide

/-! ### One step of each instruction (95_test_vectors.md) -/

/-- R140's example. -/
theorem test_movRR : see (step { machineAt 0x10 [0x01, 0, 1] with regs := ⟨7, 0, 1, 1⟩, c := true })
    aluA = some (0, true, true) := by decide

/-- R140, corner case: `mov a, a` tests for zero. -/
theorem test_movRR_same : see (step { machineAt 0 [0x01, 0, 0] with regs := ⟨7, 0, 0, 0⟩, z := true })
    aluA = some (7, false, false) := by decide

theorem test_movRI : see (step { machineAt 0xFFFD [0x02, 0, 0xFF] with c := true })
    (fun t => (aluA t, t.pc)) = some ((255, false, true), 0x0000) := by decide

/-- V-ADD 1. -/
theorem test_addRR_carry : see (step { machineAt 0 [0x03, 0, 1] with regs := ⟨200, 100, 0, 0⟩ })
    aluA = some (44, false, true) := by decide

/-- V-ADD 5: the source is also the destination. -/
theorem test_addRR_same : see (step { machineAt 0 [0x03, 0, 0] with regs := ⟨128, 0, 0, 0⟩ })
    aluA = some (0, true, true) := by decide

/-- V-ADD 6. -/
theorem test_addRI : see (step { machineAt 0 [0x04, 0, 0x0A] with regs := ⟨250, 0, 0, 0⟩ })
    aluA = some (4, false, true) := by decide

/-- V-DISPATCH 4: the operand bytes wrap. -/
theorem test_addRI_wrap : see (step { machineAt 0xFFFE [0x04, 0, 5] with regs := ⟨1, 0, 0, 0⟩ })
    (fun t => (aluA t, t.pc)) = some ((6, false, false), 0x0001) := by decide

/-- V-SUB 2. -/
theorem test_subRR_borrow : see (step { machineAt 0 [0x05, 0, 1] with regs := ⟨3, 5, 0, 0⟩ })
    aluA = some (254, false, true) := by decide

/-- V-SUB 4. -/
theorem test_subRR_equal : see (step { machineAt 0 [0x05, 0, 1] with regs := ⟨5, 5, 0, 0⟩, c := true })
    aluA = some (0, true, false) := by decide

/-- V-SUB 9. -/
theorem test_subRI : see (step (machineAt 0 [0x06, 2, 1]))
    (fun t => (t.regs.c, t.z, t.c)) = some (255, false, true) := by decide

/-- V-CMP 3. -/
theorem test_cmpRR : see (step { machineAt 0 [0x07, 0, 1] with regs := ⟨3, 7, 0, 0⟩ })
    (fun t => (aluA t, t.regs.b)) = some ((3, false, true), 7) := by decide

/-- V-CMP 6. -/
theorem test_cmpRI : see (step { machineAt 0 [0x08, 3, 0xFF] with regs := ⟨0, 0, 0, 255⟩ })
    (fun t => (t.regs.d, t.z, t.c)) = some (255, true, false) := by decide

/-- V-MUL 2. -/
theorem test_mul : see (step { machineAt 0 [0x09, 0, 1] with regs := ⟨16, 16, 0, 0⟩ })
    aluA = some (0, true, true) := by decide

/-- V-MUL 3. -/
theorem test_mul_fits : see (step { machineAt 0 [0x09, 0, 1] with regs := ⟨15, 17, 0, 0⟩, c := true })
    aluA = some (255, false, false) := by decide

/-- V-DIV 1. -/
theorem test_div : see (step { machineAt 0 [0x0A, 0, 1] with regs := ⟨7, 2, 0, 0⟩, c := true })
    aluA = some (3, false, true) := by decide

/-- V-DIV 6. -/
theorem test_div_zero : see (step { machineAt 0x10 [0x0A, 0, 1] with regs := ⟨9, 0, 0, 0⟩, c := true })
    (fun t => (faultView t, aluA t)) = some ((.faulted, 3, 1, 0x10), (9, false, true)) := by decide

/-- V-JUMP 1. -/
theorem test_jmp : see (step (machineAt 0 [0x0B, 0x34, 0x12])) (fun t => t.pc) = some 0x1234 := by decide

/-- V-JUMP 6: the operand bytes wrap. -/
theorem test_jmp_wrap :
    see (step (machineAt 0xFFFE [0x0B, 0x34, 0x12])) (fun t => t.pc) = some 0x1234 := by decide

/-- V-JUMP 2. -/
theorem test_jz_taken : see (step { machineAt 5 [0x0C, 0x10, 0] with z := true })
    (fun t => t.pc) = some 0x0010 := by decide

/-- V-JUMP 3. -/
theorem test_jz_not_taken : see (step (machineAt 5 [0x0C, 0x10, 0])) (fun t => t.pc) = some 0x0008 := by
  decide

/-- V-JUMP 4. -/
theorem test_jnz_taken : see (step (machineAt 5 [0x0D, 3, 0])) (fun t => t.pc) = some 0x0003 := by decide

/-- V-JUMP 5. -/
theorem test_jnz_not_taken : see (step { machineAt 5 [0x0D, 3, 0] with z := true })
    (fun t => t.pc) = some 0x0008 := by decide

/-- V-CALL 1. -/
theorem test_call : see (step { machineAt 0x10 [0x0E, 0x40, 0x00] with sp := 0x0100 })
    (fun t => (t.pc, t.sp, t.load 0xFF, t.load 0xFE)) = some (0x40, 0xFE, 0x00, 0x13) := by decide

/-- V-CALL 3: the pushed bytes wrap. -/
theorem test_call_wrap : see (step { machineAt 0x10 [0x0E, 0x40, 0x00] with sp := 0x0001 })
    (fun t => (t.sp, t.load 0x0000, t.load 0xFFFF)) = some (0xFFFF, 0x00, 0x13) := by decide

/-- V-RET 6: the popped bytes wrap. -/
theorem test_ret_wrap :
    see (exec .ret { machineAt 0xFFFF [0x13, 0x02] with pc := 0x40, sp := 0xFFFF })
      (fun t => (t.pc, t.sp)) = some (0x0213, 0x0001) := by decide

/-- V-HLT 2. -/
theorem test_hlt : see (step (machineAt 0xFFFF [0x10])) faultView = some (.halted, 0, 0, 0x0000) := by
  decide

/-- V-DISPATCH 2. -/
theorem test_illegal_opcode :
    see (step (machineAt 5 [0x11])) faultView = some (.faulted, 1, 0x11, 5) := by decide

/-- V-ADD 9: byte 1 is checked first. -/
theorem test_illegal_register :
    see (step (machineAt 5 [0x03, 9, 7])) faultView = some (.faulted, 2, 9, 5) := by decide

/-- V-DIV 9: the register check comes before the divisor check. -/
theorem test_illegal_register_in_div :
    see (step (machineAt 0 [0x0A, 0, 4])) faultView = some (.faulted, 2, 4, 0) := by decide

/-- V-HLT 3 and V-DISPATCH 5: no step exists. -/
theorem test_no_step : step { machineAt 0 [0x10] with run := .halted } = .fault .stepWhileHalted ∧
    step { machineAt 0 [0x10] with run := .faulted, fcause := 3, finfo := 1 } =
      .fault (.stepWhileFaulted 3 1) := ⟨rfl, rfl⟩

/-- V-STACK 2. -/
theorem test_push_pop : let s := State.reset.push16 0xABCD
    (s.load 0xFFFF, s.load 0xFFFE, s.sp) = (0xAB, 0xCD, 0xFFFE) ∧ s.pop16.1 = 0xABCD := by decide

/-- V-DISPATCH 6 and V-JUMP 8: the spec's own step. -/
theorem test_uninit : specStepWith Config.referenceOpc (machineAt 0 [0x04, 0, 1]) Marks.reset =
      .fault (.uninitRead (.reg .a)) ∧
    specStepWith Config.referenceOpc (machineAt 0 [0x0C, 0x10, 0]) Marks.reset =
      .fault (.uninitRead .z) :=
  ⟨rfl, rfl⟩

/-- R126, R129: a step that ends in Faulted is a fault that carries its cause (V-DISPATCH 2). -/
theorem test_spec_fault : let s := machineAt 5 [0x11]
    specStepWith Config.referenceOpc s Marks.reset =
      .fault (.execution (.illegalOpcode 0x11) { s with run := .faulted, fcause := 1, finfo := 0x11 }
        Marks.reset) := rfl

/-- R58, R60: writing the fill byte back leaves nothing listed. -/
theorem test_memory_canonical : ((Memory.write [] 7 5).write 3 1).wf = true ∧
    (Memory.write [] 7 5).write 7 0 = [] := by decide

/-- R67, CALL's row. -/
theorem test_bus_call : busWith Config.referenceOpc { machineAt 0x10 [0x0E, 0x40, 0] with sp := 0x0100 } =
    [.read 0x10, .read 0x11, .read 0x12, .write 0xFF 0x00, .write 0xFE 0x13] := by decide

/-- R246, R247: the host's loop ends at HLT, and a run it cuts short is still Running. -/
theorem test_hostLoop : runEnd (hostLoop Config.referenceOpc 5 (machineAt 9 [0x10])) = .normal ∧
    runEnd (hostLoop Config.referenceOpc 1 (machineAt 7 [0x0B, 7, 0])) = .cutShort ∧
    runEnd (hostLoop Config.referenceOpc 5 (machineAt 5 [0x11])) = .inFault 1 0x11 := by decide

/-- R264 with 95_test_vectors.md P4 (SP 0x0000, 14 bytes) and P7 (SP 0x0012, 20 bytes), call depth 1. -/
theorem test_stackClear : stackClear 0x0000 1 14 = true ∧ stackClear 0x0012 1 20 = false := by decide

/-- R264: a register must be written before it is read. -/
theorem test_safeFor : safeFor Config.referenceOpc 1 (machineAt 0 [0x02, 0, 5]) Marks.reset = true ∧
    safeFor Config.referenceOpc 1 (machineAt 0 [0x04, 0, 5]) Marks.reset = false := by decide

/-! ### The assembler (95_test_vectors.md, P1 and P2) -/

/-- P1. -/
def sourceP1 : Text := "mov a,5\nmov b,3\nsub a,b\nhlt\n".toList

theorem test_assemble_P1 : (assembleWith Config.referenceOpc sourceP1).map Program.image =
    .ok [2, 0, 5, 2, 1, 3, 5, 0, 1, 0x10] := rfl

/-- R101 to R103, R107: comment, label, mixed case and a forward reference. -/
theorem test_assemble_labels :
    (assembleWith Config.referenceOpc "; skip\n JZ\tEnd\nend:\nCMP d, 007\nret".toList).map Program.image =
      .ok [0x0C, 3, 0, 0x08, 3, 7, 0x0F] := rfl

/-- R102, R104, R107, R109: four rejected lines. -/
theorem test_assemble_rejects :
    assembleWith Config.referenceOpc "loop: mov a,1".toList = .error ⟨1, .unknownMnemonic⟩ ∧
    assembleWith Config.referenceOpc "hlt\nadd a,256".toList = .error ⟨2, .badImmediate⟩ ∧
    assembleWith Config.referenceOpc "jmp x".toList = .error ⟨1, .undefinedLabel⟩ ∧
    assembleWith Config.referenceOpc "ret a".toList = .error ⟨1, .wrongOperandCount⟩ :=
  ⟨rfl, rfl, rfl, rfl⟩

/-! ### Witnesses: states and operands that meet a statement's hypotheses, clause by clause -/

/-- The reference opcode map. -/
abbrev ref : OpcodeMap := Config.referenceOpc

theorem test_witness_EncodeInvertsDecode :
    decodeWith ref [0x0E, 0x40, 0x00, 0x0F] = .ok (.call 0x0040, [0x0F]) := rfl

theorem test_witness_Unmapped_low : (machineAt 5 [0x00]).run = .running ∧
    ∀ m, ref.code m ≠ (machineAt 5 [0x00]).load 5 := ⟨rfl, by intro m; cases m <;> decide⟩

theorem test_witness_Unmapped_high : (machineAt 5 [0x11]).run = .running ∧
    ∀ m, ref.code m ≠ (machineAt 5 [0x11]).load 5 := ⟨rfl, by intro m; cases m <;> decide⟩

theorem test_witness_Unmapped_mapped : ref.code .hlt = (machineAt 5 [0x10]).load 5 := by decide

theorem test_witness_StepRuns : let s := machineAt 0xFFFE [0x0A, 0, 1]
    s.run = .running ∧ decode [s.load s.pc, s.load (s.pc + 1), s.load (s.pc + 2)] = .ok (.div 0 1, []) :=
  ⟨rfl, rfl⟩

theorem test_witness_FetchWraps : (machineAt 0xFFFF [0x10]).pc = 0xFFFF ∧
    (machineAt 0xFFFE [0x04, 0, 5]).run = .running ∧ (machineAt 0xFFFE [0x04, 0, 5]).pc = 0xFFFE ∧
    ref.code .addRI = (machineAt 0xFFFE [0x04, 0, 5]).load 0xFFFE := by decide

theorem test_witness_NoStep : ({ State.reset with run := .halted } : State).run ≠ .running := by decide

theorem test_witness_PlacedWord : decodeTableWord 24 0x12340B = some (.jmp 0x1234) := by decide

theorem test_witness_RegisterIndex : (3 : Byte).toNat ≤ 3 ∧ 3 < (4 : Byte).toNat ∧ 3 < (255 : Byte).toNat := by
  decide

/-- Two bytes stored in either order. -/
theorem test_witness_MemoriesAlike : let m := (Memory.write [] 1 5).write 0 7
    let n := (Memory.write [] 0 7).write 1 5
    m.wf = true ∧ n.wf = true ∧ ∀ a, m.read a = n.read a :=
  ⟨by decide, by decide, fun a => congrArg (fun m => Memory.read m a)
    (by decide : (Memory.write [] 1 5).write 0 7 = (Memory.write [] 0 7).write 1 5)⟩

theorem test_witness_Div : ({ State.reset with regs := ⟨255, 1, 255, 0⟩ } : State).reg .b ≠ 0 ∧
    ({ State.reset with regs := ⟨255, 1, 255, 0⟩ } : State).reg .c ≠ 0 := by decide

theorem test_witness_DivByZero : ({ State.reset with regs := ⟨9, 0, 0, 0⟩ } : State).reg .b = 0 := by decide

theorem test_witness_BranchAfterCompare :
    exec (.jz 0x1234) { State.reset with z := true } =
      .next { State.reset with z := true, pc := 0x1234 } := rfl

theorem test_witness_PopUndoesPush : let s := { State.reset with sp := 0x0100 }
    let u := { s.push16 0xABCD with pc := 0x0040 }
    u.sp = (s.push16 0xABCD).sp ∧ u.mem = (s.push16 0xABCD).mem ∧
      State.reset.sp = 0x0000 ∧ ({ State.reset with sp := 0x0001 } : State).sp = 0x0001 := by decide

/-- The called code wrote a register before the RET. -/
theorem test_witness_CallThenRet :
    ∃ t, exec (.call 0x0040) { machineAt 0x10 [] with sp := 0x0001 } = .next t ∧
      let u := { t with regs := ⟨1, 2, 3, 4⟩ }
      u.sp = t.sp ∧ u.load t.sp = t.load t.sp ∧ u.load (t.sp + 1) = t.load (t.sp + 1) :=
  ⟨_, rfl, rfl, rfl, rfl⟩

/-- A CALL whose target, right after it, is a RET. -/
theorem test_witness_CallThenRet_steps : let s := { machineAt 0x10 [0x0E, 0x13, 0x00, 0x0F] with sp := 0x0100 }
    s.run = .running ∧ fetchInstr ref s = .ok (.call 0x0013) ∧
      ∃ t, stepWith ref s = .next t ∧ t.load 0x0013 = ref.code .ret :=
  ⟨rfl, rfl, _, rfl, by decide⟩

theorem test_witness_JmpToItself : (machineAt 7 [0x0B, 7, 0]).run = .running ∧
    fetchInstr ref (machineAt 7 [0x0B, 7, 0]) = .ok (.jmp (machineAt 7 [0x0B, 7, 0]).pc) := ⟨rfl, rfl⟩

theorem test_witness_OnlyHlt : ∃ t, stepWith ref (machineAt 9 [0x10]) = .next t ∧ t.run = .halted :=
  ⟨_, rfl, rfl⟩

theorem test_witness_SpMoves : ∃ t u, exec (.call 5) State.reset = .next t ∧ exec .ret t = .next u :=
  ⟨_, _, rfl, rfl⟩

theorem test_witness_OnlyCallWrites : ∃ t, exec .ret State.reset = .next t ∧
    ∀ target, Instr.ret ≠ .call target := ⟨_, rfl, by simp⟩

theorem test_witness_KeepFlags : Instr.mnemonic (.jnz 5) ∈ [Mnemonic.jmp, .jz, .jnz, .call, .ret, .hlt] ∧
    (∃ t, exec (.jnz 5) State.reset = .next t) ∧
    ∃ t, stepWith ref (machineAt 0 [0x0A, 0, 1]) = .next t ∧ t.run = .faulted :=
  ⟨by decide, ⟨_, rfl⟩, _, rfl, rfl⟩

theorem test_witness_CarryNeverRead : ∃ t, exec (.addRR 0 0) { State.reset with c := true } = .next t :=
  ⟨_, rfl⟩

theorem test_witness_Pc : (∃ t, stepWith ref (machineAt 5 [0xFF]) = .next t ∧ t.run = .faulted) ∧
    ∃ t, stepWith ref (machineAt 5 [0x0F]) = .next t ∧ t.run ≠ .faulted :=
  ⟨⟨_, rfl, rfl⟩, _, rfl, by decide⟩

theorem test_witness_FirstIllegal : Instr.div ∈ [Instr.movRR, .addRR, .subRR, .cmpRR, .mul, .div] ∧
    Instr.cmpRI ∈ [Instr.movRI, .addRI, .subRI, .cmpRI] ∧ 3 < (4 : Byte).toNat ∧ (3 : Byte).toNat ≤ 3 :=
  ⟨by simp, by simp, by decide, by decide⟩

theorem test_witness_FaultsArePrecise :
    (∃ t, stepWith ref (machineAt 5 [0x00]) = .next t ∧ t.run = .faulted ∧ t.fcause = 1) ∧
    (∃ t, stepWith ref (machineAt 5 [0x01, 3, 4]) = .next t ∧ t.run = .faulted ∧ t.fcause = 2) ∧
    ∃ t, stepWith ref (machineAt 5 [0x0A, 0, 1]) = .next t ∧ t.run = .faulted ∧ t.fcause = 3 :=
  ⟨⟨_, rfl, rfl, rfl⟩, ⟨_, rfl, rfl, rfl⟩, _, rfl, rfl, rfl⟩

theorem test_witness_ControlNeverFaults : Instr.mnemonic .hlt ∈ [Mnemonic.jmp, .jz, .jnz, .call, .ret, .hlt] ∧
    State.reset.run = .running := by decide

theorem test_witness_StepInvariant : invWith ref (machineAt 0x10 [0x0E, 0x40, 0]) = true ∧
    ∃ t, stepWith ref (machineAt 0x10 [0x0E, 0x40, 0]) = .next t := ⟨by decide, _, rfl⟩

/-- A boot and one step that faults. -/
theorem test_witness_HostInvariant : invWith ref State.reset = true ∧
    ∃ h, hostAllWith ref (bootOps [0x11] ⟨0x0100, ⟨1, 2, 3, 4⟩, true, true⟩ ++ [.step, .status])
      ⟨State.reset, false⟩ = .ok h := ⟨by decide, _, rfl⟩

theorem test_witness_HostPort :
    (∃ h r, hostWith ref (.memWrite 0xFFFF 7) ⟨State.reset, false⟩ = .ok (h, r)) ∧
    (0xFFFE : Addr) ≠ 0xFFFF ∧ ∃ h r, hostWith ref .step ⟨machineAt 0 [0x10], false⟩ = .ok (h, r) :=
  ⟨⟨_, _, rfl⟩, by decide, _, _, rfl⟩

theorem test_witness_Boot : ([] : List Byte).length ≤ 65536 ∧ (List.replicate 65536 (0x10 : Byte)).length ≤ 65536 ∧
    (⟨State.reset, false⟩ : Session).started = false := ⟨by simp, Nat.le_of_eq List.length_replicate, rfl⟩

/-- An image of two bytes: a byte inside it, and the first address past it. -/
theorem test_witness_Boot_bytes : 1 < [(0x0F : Byte), 0x10].length ∧ [(0x0F : Byte), 0x10].length ≤ (2 : Addr).toNat := by
  decide

theorem test_witness_Bus : (machineAt 0 [0x0F]).run = .running ∧
    fetchInstr ref (machineAt 0 [0x0F]) = .ok .ret ∧ fetchInstr ref (machineAt 0xFFFF [0x10]) = .ok .hlt ∧
    fetchInstr ref (machineAt 0xFFFF [0x0E, 0x40, 0]) = .ok (.call 0x0040) ∧
    fetchInstr ref (machineAt 0xFFFE [0x0A, 0, 4]) = .ok (.div 0 4) ∧
    ∀ m, ref.code m ≠ (machineAt 0 [0x11]).load 0 :=
  ⟨rfl, rfl, rfl, rfl, rfl, by intro m; cases m <;> decide⟩

theorem test_witness_BusNames : Instr.div 0 4 ≠ .ret ∧ Instr.div 0 4 ≠ .hlt ∧
    (∀ target, Instr.div 0 4 ≠ .call target) ∧
    ∃ t, stepWith ref (machineAt 0 [0x0A, 0, 4]) = .next t ∧ t.run = .faulted :=
  ⟨by simp, by simp, by simp, _, rfl, rfl⟩

/-- A memory that differs from the state's in a byte the step does not read. -/
theorem test_witness_BusReads : let s := machineAt 0 [0x10]
    (∀ a, Access.read a ∈ busWith ref s → (s.mem.write 5 9).read a = s.mem.read a) ∧
      ∃ t, stepWith ref s = .next t := by
  refine ⟨fun a h => ?_, _, rfl⟩
  have h' : Access.read a ∈ [Access.read 0] := h
  obtain rfl : a = 0 := by simpa using h'
  decide

/-- 95_test_vectors.md P7: the pushed pair lies on the call target. -/
theorem test_witness_FetchSees : let s := { machineAt 0x000D [0x0E, 0x10, 0x00] with sp := 0x0012 }
    s.run = .running ∧ fetchInstr ref s = .ok (.call 0x0010) ∧ (0x0010 : Addr) = s.sp - 2 ∧
      ref.code .hlt = loByte (s.pc + 3) := ⟨rfl, rfl, by decide, by decide⟩

/-- Two resets that differ in every value the spec leaves open, and runs of one step: one that goes on, one
that ends in a fault, one that ends in UninitRead. -/
theorem test_witness_ResetValues : let s := machineAt 0 [0x02, 0, 5]
    let s' := { s with regs := ⟨9, 8, 7, 6⟩, z := true, c := true }
    SameWritten Marks.reset s s' ∧ ∃ t m', specRunWith ref 1 s Marks.reset = .next (t, m') :=
  ⟨⟨rfl, rfl, rfl, rfl, rfl, rfl, by intro l h; rcases l with (_ | _ | _ | _) | _ | _ <;> cases h⟩, _, _, rfl⟩

/-- The other two ends of the same runs: IllegalRegister at the first step, and UninitRead. -/
theorem test_witness_ResetValues_faults :
    (∃ f t m', specRunWith ref 1 (machineAt 0 [0x02, 4, 5]) Marks.reset = .fault (.execution f t m')) ∧
    ∃ l, specRunWith ref 1 (machineAt 0 [0x04, 3, 5]) Marks.reset = .fault (.uninitRead l) :=
  ⟨⟨_, _, _, rfl⟩, _, rfl⟩

theorem test_witness_SpecStep :
    (∃ t m', specStepWith ref (machineAt 0 [0x02, 0, 5]) Marks.reset = .next (t, m')) ∧
    (∃ f t m', specStepWith ref (machineAt 0 [0x03, 9, 7]) Marks.reset = .fault (.execution f t m')) ∧
    (∃ f, specStepWith ref { machineAt 0 [0x10] with run := .halted } Marks.reset = .fault (.noStep f)) ∧
    (machineAt 5 [0x11]).run = .running ∧ ∀ n, ref.code n ≠ (machineAt 5 [0x11]).load 5 :=
  ⟨⟨_, _, rfl⟩, ⟨_, _, _, rfl⟩, ⟨_, rfl⟩, rfl, by intro n; cases n <;> decide⟩

/-- Right after reset MOV_RI reads nothing and goes on; with its two operands written and nothing else, a
DIV by zero is a fault. -/
theorem test_witness_SpecStep_reads : let s := machineAt 0 [0x02, 0, 5]
    let u := machineAt 0 [0x0A, 0, 1]
    let m : Marks := ⟨true, true, false, false, false, false⟩
    s.run = .running ∧ fetchInstr ref s = .ok (.movRI 0 5) ∧
    (∀ l ∈ reads (.movRI 0 5), Marks.reset.has l = true) ∧
    (∃ t, stepWith ref s = .next t ∧ t.run ≠ .faulted) ∧
    u.run = .running ∧ fetchInstr ref u = .ok (.div 0 1) ∧ (∀ l ∈ reads (.div 0 1), m.has l = true) ∧
    ∃ t, stepWith ref u = .next t ∧ t.run = .faulted :=
  ⟨rfl, rfl, by decide, ⟨_, rfl, by decide⟩, rfl, rfl, by decide, _, rfl, rfl⟩

/-- R140, R141, R196, R197, R220: what needs nothing written, or only the source, right after reset. -/
theorem test_witness_SpecStep_nothing_read :
    reads (.movRR 0 1) = [.reg .b] ∧ reads (.call 5) = [] ∧ reads .ret = [] ∧ reads .hlt = [] ∧
    reads (.jmp 5) = [] := by decide

theorem test_witness_UninitRead :
    Instr.div ∈ [Instr.addRR, .subRR, .cmpRR, .mul, .div] ∧ Instr.cmpRI ∈ [Instr.addRI, .subRI, .cmpRI] ∧
    fetchInstr ref (machineAt 0 [0x0A, 0, 1]) = .ok (.div (Reg.index .a) (Reg.index .b)) ∧
    fetchInstr ref (machineAt 0 [0x08, 3, 255]) = .ok (.cmpRI (Reg.index .d) 255) ∧
    fetchInstr ref (machineAt 0 [0x01, 0, 1]) = .ok (.movRR (Reg.index .a) (Reg.index .b)) ∧
    fetchInstr ref (machineAt 0 [0x0D, 3, 0]) = .ok (.jnz 3) ∧
    fetchInstr ref (machineAt 0 [0x0A, 0, 4]) = .ok (.div 0 4) ∧ 3 < (4 : Byte).toNat :=
  ⟨by simp, by simp, rfl, rfl, rfl, rfl, rfl, by decide⟩

theorem test_witness_UninitRead_marks : Marks.reset.has (.reg .a) = false ∧ Marks.reset.has .z = false ∧
    (Marks.reset.add (.reg .a)).has (.reg .a) = true ∧
    (Marks.reset.add (.reg .a)).has (.reg .b) = false := by decide

/-- The clauses on MOV and on the immediate forms: the source alone written, nothing written, and byte 1
just above 3 and at 255. -/
theorem test_witness_UninitRead_moves :
    fetchInstr ref (machineAt 0 [0x01, 0, 1]) = .ok (.movRR (Reg.index .a) (Reg.index .b)) ∧
    (Marks.reset.add (.reg .b)).has (.reg .b) = true ∧ (Marks.reset.add (.reg .b)).has (.reg .a) = false ∧
    fetchInstr ref (machineAt 0 [0x02, 3, 255]) = .ok (.movRI (Reg.index .d) 255) ∧
    Instr.movRI ∈ [Instr.movRI, .addRI, .subRI, .cmpRI] ∧
    fetchInstr ref (machineAt 0 [0x02, 4, 0]) = .ok (.movRI 4 0) ∧
    fetchInstr ref (machineAt 0 [0x02, 255, 0]) = .ok (.movRI 255 0) ∧
    3 < (4 : Byte).toNat ∧ 3 < (255 : Byte).toNat :=
  ⟨rfl, by decide, by decide, rfl, by simp, rfl, rfl, by decide, by decide⟩

/-- P1 is accepted; its last instruction is number 3. -/
theorem test_witness_Assembler : ∃ p, assembleWith ref sourceP1 = .ok p ∧ 3 < p.code.length :=
  ⟨_, rfl, by decide⟩

theorem test_witness_FormChoice : registerOf ['d'] = some 3 ∧ immediateOf ['2', '5', '5'] = some 255 ∧
    registerOf ['2', '5', '6'] = none ∧ immediateOf ['2', '5', '6'] = none ∧
    allDigits ['0'] = true ∧ allDigits ['d'] = false := by decide

theorem test_witness_FormChoice_ok : formByDigits .cmpRR .cmpRI 0 ['2', '5', '5'] = .ok (.cmpRI 0 255) ∧
    formByDigits .cmpRR .cmpRI 0 ['d'] = .ok (.cmpRR 0 3) := ⟨rfl, rfl⟩

end Sys2Proof.Tests
end

section
/-! PROOFS. The registers and the program counter (10_state.md §1, §2): what a register holds after a
write, where each move of the PC leads, and what the fetch reads at the top of memory. -/

namespace Sys2Proof.Machine

/-! ### Registers -/

@[simp] theorem State.reg_setReg_same (s : State) (r : Reg) (v : Byte) : (s.setReg r v).reg r = v := by
  rw [State.reg_eq, State.setReg_regs, RegFile.get_set_same]

/-- A write to one register changes no other (R20). -/
theorem State.reg_setReg_other (s : State) {r r' : Reg} (v : Byte) (h : r' ≠ r) :
    (s.setReg r v).reg r' = s.reg r' := by
  rw [State.reg_eq, State.setReg_regs, RegFile.get_set_other _ v h, ← State.reg_eq]

/-- Settles O9, from what a register reads after a write to it and to another register. -/
theorem registersAreIndependentBytes : Obligations.RegistersAreIndependentBytes := by
  unfold Obligations.RegistersAreIndependentBytes
  have indices : regidx 0 = .ok .a ∧ regidx 1 = .ok .b ∧ regidx 2 = .ok .c ∧ regidx 3 = .ok .d :=
    ⟨regidx_index .a, regidx_index .b, regidx_index .c, regidx_index .d⟩
  have fields (s : State) :
      s.reg .a = s.regs.a ∧ s.reg .b = s.regs.b ∧ s.reg .c = s.regs.c ∧ s.reg .d = s.regs.d :=
    ⟨rfl, rfl, rfl, rfl⟩
  exact ⟨indices, fields, fun s r v => ⟨s.reg_setReg_same r v, fun _ h => s.reg_setReg_other v h⟩⟩

/-! ### The program counter -/

/-- The fetch of one byte moves the PC as `advance 1` does (R24, R121). -/
theorem State.fetch8_snd (s : State) : s.fetch8.2 = s.advance 1 := rfl

/-- The PC after `n` fetched bytes, modulo 65536 (R24). -/
theorem State.advance_pc_toNat (s : State) (n : Nat) :
    (s.advance n).pc.toNat = (s.pc.toNat + n) % 65536 := by
  rw [State.advance_pc, BitVec.toNat_add, BitVec.toNat_ofNat, Nat.add_mod_mod]

/-- The address after the last is the first (R24, R53). -/
theorem topAddr_add_one : (0xFFFF : Addr) + 1 = 0x0000 := by decide

/-- A mapped opcode byte at the PC gives its instruction, the operands taken from the two addresses
after it (R87, R122). -/
theorem fetchInstr_of_code {opc : OpcodeMap} {s : State} {m : Mnemonic} (h : opc.code m = s.load s.pc) :
    fetchInstr opc s = .ok (Instr.ofOperands m (s.load (s.pc + 1)) (s.load (s.pc + 1 + 1))) := by
  have found : opc.lookup (s.load s.pc) = some m := (opc.lookup_some_iff _ m).mpr h
  obtain ⟨missing, -⟩ | ⟨n, hn, hfetch⟩ := fetchInstr_cases opc s
  · rw [found] at missing
    cases missing
  · rw [found] at hn
    cases hn
    exact hfetch

/-- An instruction whose opcode byte is at 0xFFFE has its operand bytes at 0xFFFF and 0x0000 (R24). -/
theorem fetchInstr_straddling_top {opc : OpcodeMap} {s : State} {m : Mnemonic} (hpc : s.pc = 0xFFFE)
    (h : opc.code m = s.load 0xFFFE) :
    fetchInstr opc s = .ok (Instr.ofOperands m (s.load 0xFFFF) (s.load 0x0000)) := by
  have hop1 : s.pc + 1 = 0xFFFF := by rw [hpc]; decide
  have hop2 : s.pc + 1 + 1 = 0x0000 := by rw [hop1, topAddr_add_one]
  rw [← hpc] at h
  rw [fetchInstr_of_code h, hop2, hop1]

/-- Settles O6: the PC moves by `advance` alone, and the fetch reads where it leads. -/
theorem fetchWrapsAtTopOfMemory : Obligations.FetchWrapsAtTopOfMemory := by
  unfold Obligations.FetchWrapsAtTopOfMemory
  refine ⟨fun s => ?fetch, State.advance_pc_toNat, fun s hpc => ?top,
    fun opc s m hrun hpc hcode => ?straddle⟩
  case fetch => rw [State.fetch8_snd, State.advance_pc_toNat]
  case top =>
    rw [State.fetch8_snd, State.advance_pc, hpc]
    exact topAddr_add_one
  case straddle =>
    have hfetch := fetchInstr_straddling_top hpc hcode
    exact ⟨hfetch, stepWith_of_fetch hrun hfetch⟩

end Sys2Proof.Machine
end

section
/-! PROOFS. The memory port (20_memory.md §7): the accesses of each step, which instruction has an access
beyond its fetches, and that CALL alone writes. -/

namespace Sys2Proof

/-! ### Lengths -/

@[simp] theorem Instr.length_ret : Instr.ret.length = 1 := rfl
@[simp] theorem Instr.length_hlt : Instr.hlt.length = 1 := rfl

/-- Every instruction but RET and HLT has three bytes (R80). -/
theorem Instr.length_eq_three {i : Instr} (hret : i ≠ .ret) (hhlt : i ≠ .hlt) : i.length = 3 := by
  cases i with
  | ret => exact absurd rfl hret
  | hlt => exact absurd rfl hhlt
  | _ => rfl

/-! ### The two bytes of an address -/

theorem hiByte_toNat (v : Addr) : (hiByte v).toNat = v.toNat / 256 := by
  have := v.isLt
  rw [hiByte, BitVec.toNat_ofNat]
  omega

theorem loByte_toNat (v : Addr) : (loByte v).toNat = v.toNat % 256 := by
  rw [loByte, BitVec.toNat_ofNat]

end Sys2Proof

namespace Sys2Proof.Machine

/-! ### Fetch accesses -/

@[simp] theorem fetchAccesses_one (a : Addr) : fetchAccesses a 1 = [.read a] := by
  simp [fetchAccesses]

@[simp] theorem fetchAccesses_three (a : Addr) :
    fetchAccesses a 3 = [.read a, .read (a + 1), .read (a + 2)] := by
  simp [fetchAccesses, List.range_succ]

/-- A fetch writes nothing (R55). -/
theorem write_notMem_fetchAccesses (start : Addr) (n : Nat) (a : Addr) (v : Byte) :
    Access.write a v ∉ fetchAccesses start n := by
  simp [fetchAccesses]

/-! ### The accesses of each instruction -/

/-- CALL and RET alone access memory after the fetches (R51, R67). -/
theorem dataAccesses_eq_nil {i : Instr} (hret : i ≠ .ret) (hcall : ∀ target, i ≠ .call target) (s : State) :
    dataAccesses i s = [] := by
  cases i with
  | ret => exact absurd rfl hret
  | call target => exact absurd rfl (hcall target)
  | _ => rfl

/-- CALL alone writes memory (R51). -/
theorem eq_call_of_write_mem_dataAccesses {i : Instr} {s : State} {a : Addr} {v : Byte}
    (h : Access.write a v ∈ dataAccesses i s) : ∃ target, i = .call target := by
  by_contra hcall
  have hnot : ∀ target, i ≠ .call target := fun target e => hcall ⟨target, e⟩
  by_cases hret : i = .ret
  · subst hret
    simp [dataAccesses] at h
  · rw [dataAccesses_eq_nil hret hnot] at h
    cases h

/-! ### The accesses of a step -/

/-- An opcode byte outside the image of `OPC` is fetched as IllegalOpcode (R88, R122). -/
theorem fetchInstr_of_unmapped {opc : OpcodeMap} {s : State} (h : ∀ m, opc.code m ≠ s.load s.pc) :
    fetchInstr opc s = .error (.illegalOpcode (s.load s.pc)) := by
  obtain ⟨-, hfetch⟩ | ⟨m, found, -⟩ := fetchInstr_cases opc s
  · exact hfetch
  · exact absurd ((opc.lookup_some_iff _ m).mp found) (h m)

/-- A Running core reads the bytes of the instruction it fetches, then makes that instruction's own
accesses (R67). -/
theorem busWith_of_fetch {opc : OpcodeMap} {s : State} {i : Instr} (hr : s.run = .running)
    (hf : fetchInstr opc s = .ok i) :
    busWith opc s = fetchAccesses s.pc i.length ++ dataAccesses i s := by
  simp [busWith, hr, hf]

/-- An illegal opcode is one read (R67, R235). -/
theorem busWith_of_illegal {opc : OpcodeMap} {s : State} {f : HwFault} (hr : s.run = .running)
    (hf : fetchInstr opc s = .error f) : busWith opc s = [.read s.pc] := by
  simp [busWith, hr, hf]

/-- A core that is not Running makes no access (R120, R221). -/
theorem busWith_of_not_running {opc : OpcodeMap} {s : State} (hr : s.run ≠ .running) :
    busWith opc s = [] := by
  cases h : s.run with
  | running => exact absurd h hr
  | halted => simp [busWith, h]
  | faulted => simp [busWith, h]

/-- A step whose bus shows a write runs a CALL. -/
theorem fetch_call_of_write_mem_busWith {opc : OpcodeMap} {s : State} {a : Addr} {v : Byte}
    (h : Access.write a v ∈ busWith opc s) :
    s.run = .running ∧ ∃ target, fetchInstr opc s = .ok (.call target) := by
  by_cases hr : s.run = .running
  case neg =>
    rw [busWith_of_not_running hr] at h
    cases h
  cases hf : fetchInstr opc s with
  | error f =>
    rw [busWith_of_illegal hr hf] at h
    simp at h
  | ok i =>
    rw [busWith_of_fetch hr hf, List.mem_append] at h
    obtain ⟨target, rfl⟩ :=
      eq_call_of_write_mem_dataAccesses (h.resolve_left (write_notMem_fetchAccesses _ _ _ _))
    exact ⟨hr, target, rfl⟩

/-- CALL leaves the run state as it was (R196, R231). -/
theorem run_of_exec_call {target : Addr} {s t : State} (h : exec (.call target) s = .next t) :
    t.run = s.run := by
  rw [exec_call] at h
  cases h
  rfl

/-- A step that ends in a fault writes nothing: only a CALL writes, and a CALL raises no fault (R67, R231). -/
theorem write_notMem_busWith_of_faulted {opc : OpcodeMap} {s t : State} (hstep : stepWith opc s = .next t)
    (ht : t.run = .faulted) (a : Addr) (v : Byte) : Access.write a v ∉ busWith opc s := by
  intro hwrite
  obtain ⟨hr, target, hf⟩ := fetch_call_of_write_mem_busWith hwrite
  rw [stepWith_of_fetch hr hf] at hstep
  have running : t.run = .running := (run_of_exec_call hstep).trans hr
  rw [running] at ht
  cases ht

/-! ### The access table -/

/-- Settles O50: each row is the fetched bytes with the instruction's own accesses after them, and a
faulting step is no CALL, so it writes nothing. -/
theorem busAccessesFollowTheTable : Obligations.BusAccessesFollowTheTable := by
  unfold Obligations.BusAccessesFollowTheTable
  refine ⟨fun opc s hr => ⟨fun hf => ?ret, fun hf => ?hlt, fun i hf hret hhlt hcall => ?other,
    fun target hf => ?call, fun hunmapped => ?illegal⟩, fun opc s t => write_notMem_busWith_of_faulted⟩
  case ret =>
    rw [busWith_of_fetch hr hf, Instr.length_ret, fetchAccesses_one]
    rfl
  case hlt =>
    rw [busWith_of_fetch hr hf, Instr.length_hlt, fetchAccesses_one]
    rfl
  case other =>
    rw [busWith_of_fetch hr hf, Instr.length_eq_three hret hhlt, dataAccesses_eq_nil hret hcall,
      fetchAccesses_three, List.append_nil]
  case call =>
    refine ⟨hiByte (s.pc + 3), loByte (s.pc + 3), hiByte_toNat _, loByte_toNat _, ?_⟩
    rw [busWith_of_fetch hr hf, Instr.length_eq_three (by simp) (by simp), fetchAccesses_three]
    rfl
  case illegal => exact busWith_of_illegal hr (fetchInstr_of_unmapped hunmapped)

end Sys2Proof.Machine
end

section
/-! PROOFS. Dispatch (40_dispatch.md R124): which operand bytes are register indices. -/

namespace Sys2Proof

/-- The register indices are 0 to 3 (R124). -/
theorem legalIndex_eq_true_iff {b : Byte} : legalIndex b = true ↔ b.toNat ≤ 3 := decide_eq_true_iff

theorem legalIndex_eq_false_iff {b : Byte} : legalIndex b = false ↔ 3 < b.toNat := by
  rw [← Bool.not_eq_true, legalIndex_eq_true_iff, Nat.not_le]

end Sys2Proof

namespace Sys2Proof.Machine

/-! ### Register indices -/

/-- Settles O10: a legal index byte names a register, and any other raises IllegalRegister. -/
theorem registerIndexAboveThreeIsIllegal : Obligations.RegisterIndexAboveThreeIsIllegal := by
  unfold Obligations.RegisterIndexAboveThreeIsIllegal
  refine ⟨fun b hle => ?legal, fun b hgt => ?illegal⟩
  case legal =>
    obtain ⟨r, hr, hb⟩ := regidx_of_legal (legalIndex_eq_true_iff.mpr hle)
    exact ⟨r, hr, hb.symm⟩
  case illegal => exact regidx_error_iff.mpr ⟨legalIndex_eq_false_iff.mpr hgt, rfl⟩

end Sys2Proof.Machine
end

section
/-! PROOFS. The stack (43_control.md §1): where the two bytes of a push lie, what a pop reads, and that a
pop undoes a push wherever SP stands. -/

namespace Sys2Proof.Machine

/-! ### Stack addresses, modulo 65536 -/

theorem addr_sub_one_sub_one (a : Addr) : a - 1 - 1 = a - 2 := by bv_omega

theorem addr_add_one_add_one (a : Addr) : a + 1 + 1 = a + 2 := by bv_omega

theorem addr_sub_two_add_one (a : Addr) : a - 2 + 1 = a - 1 := by bv_omega

/-- The two slots of a push are two addresses, at the wrap too. -/
theorem addr_sub_one_ne_sub_two (a : Addr) : a - 1 ≠ a - 2 := by bv_omega

/-! ### What a push leaves -/

@[simp] theorem State.push16_sp (s : State) (v : Addr) : (s.push16 v).sp = s.sp - 2 :=
  addr_sub_one_sub_one s.sp

theorem State.push16_mem (s : State) (v : Addr) :
    (s.push16 v).mem = (s.mem.write (s.sp - 1) (hiByte v)).write (s.sp - 2) (loByte v) := by
  rw [State.push16_eq, addr_sub_one_sub_one]

/-- The low byte is the one written last, so nothing covers it (R190). -/
theorem State.push16_load_low (s : State) (v : Addr) : (s.push16 v).load (s.sp - 2) = loByte v := by
  rw [State.load_eq, State.push16_mem, Memory.read_write_same]

/-- The high byte stands: the low byte goes to the other slot (R190). -/
theorem State.push16_load_high (s : State) (v : Addr) : (s.push16 v).load (s.sp - 1) = hiByte v := by
  rw [State.load_eq, State.push16_mem, Memory.read_write_other _ _ (addr_sub_one_ne_sub_two s.sp),
    Memory.read_write_same]

/-- Settles O29, from what each of the two slots and every other address reads after the push. -/
theorem pushStoresHighByteAboveLow : Obligations.PushStoresHighByteAboveLow := by
  unfold Obligations.PushStoresHighByteAboveLow
  refine fun s v => ⟨s.push16_sp v, ?low, ?high, fun a h1 h2 => ?other, rfl⟩
  case low => rw [State.push16_sp, State.push16_load_low, loByte_toNat]
  case high => rw [State.push16_sp, addr_sub_two_add_one, State.push16_load_high, hiByte_toNat]
  case other =>
    rw [← addr_sub_one_sub_one] at h2
    exact s.push16_read_other v a h1 h2

/-! ### What a pop gives -/

theorem State.pop16_fst (s : State) : s.pop16.1 = word16 (s.load (s.sp + 1)) (s.load s.sp) := rfl

theorem State.pop16_snd (s : State) : s.pop16.2 = { s with sp := s.sp + 2 } := by
  rw [State.pop16_eq, addr_add_one_add_one]

/-- Settles O30, from the value a pop gives and the state it leaves. -/
theorem popReadsLowByteThenHigh : Obligations.PopReadsLowByteThenHigh := by
  unfold Obligations.PopReadsLowByteThenHigh
  refine fun s => ⟨?value, s.pop16_snd⟩
  case value => rw [State.pop16_fst, word16_toNat]

/-! ### A pop after a push -/

/-- The pair at SP after a push is the value pushed, in every state with that SP and that memory (R192). -/
theorem State.pop16_fst_of_push16 {s u : State} {v : Addr} (hsp : u.sp = (s.push16 v).sp)
    (hmem : u.mem = (s.push16 v).mem) : u.pop16.1 = v := by
  have hload (a : Addr) : u.load a = (s.push16 v).load a := by
    rw [State.load_eq, hmem, ← State.load_eq]
  rw [State.pop16_fst, hload, hload, hsp, State.push16_sp, addr_sub_two_add_one,
    State.push16_load_high, State.push16_load_low, word16_hiByte_loByte]

/-- A pop takes SP back over the two bytes pushed (R192). -/
theorem State.pop16_sp_of_push16 {s u : State} {v : Addr} (hsp : u.sp = (s.push16 v).sp) :
    u.pop16.2.sp = s.sp := by
  rw [State.push16_sp] at hsp
  rw [State.pop16_snd, hsp]
  exact BitVec.sub_add_cancel s.sp 2

/-- Where the two bytes of a push lie, its slots named by their addresses (R190, R192). -/
theorem State.push16_load_slots {s : State} {hi lo : Addr} (v : Addr) (hhi : s.sp - 1 = hi)
    (hlo : s.sp - 2 = lo) : (s.push16 v).load hi = hiByte v ∧ (s.push16 v).load lo = loByte v := by
  subst hhi hlo
  exact ⟨s.push16_load_high v, s.push16_load_low v⟩

/-- Settles O31: the slots a pop reads are the slots the push wrote, and at the wrap they are the two
addresses below SP modulo 65536. -/
theorem popUndoesPush : Obligations.PopUndoesPush := by
  unfold Obligations.PopUndoesPush
  refine ⟨fun s u v hsp hmem => ?undo, fun s v hsp => ?fromZero, fun s v hsp => ?fromOne⟩
  case undo => exact ⟨State.pop16_fst_of_push16 hsp hmem, State.pop16_sp_of_push16 hsp⟩
  case fromZero =>
    exact State.push16_load_slots v (by rw [hsp]; decide) (by rw [hsp]; decide)
  case fromOne =>
    exact State.push16_load_slots v (by rw [hsp]; decide) (by rw [hsp]; decide)

end Sys2Proof.Machine
end

section
/-! PROOFS. Reset (70_reset_and_hazards.md §1): no location counts as written after it, and the values the
spec gives the machine's reset state. -/

namespace Sys2Proof.Safety

/-! ### What counts as written after a reset -/

/-- A reset unmarks A to D, Z and C alike (R260). -/
@[simp] theorem Marks.reset_has (l : Loc) : Marks.reset.has l = false := by
  cases l with
  | reg r => cases r <;> rfl
  | z => rfl
  | c => rfl

end Sys2Proof.Safety

namespace Sys2Proof.Machine

/-! ### The reset state -/

@[simp] theorem State.reset_pc : State.reset.pc = 0x0000 := rfl
@[simp] theorem State.reset_run : State.reset.run = .running := rfl
@[simp] theorem State.reset_fcause : State.reset.fcause = 0 := rfl
@[simp] theorem State.reset_finfo : State.reset.finfo = 0 := rfl

/-- Settles O47, from what a reset makes of each field, the marks it clears and the fields of the reset
state. -/
theorem resetSetsCoreAndKeepsMemory : Obligations.ResetSetsCoreAndKeepsMemory := by
  unfold Obligations.ResetSetsCoreAndKeepsMemory
  refine ⟨fun v s => ?fields, Safety.Marks.reset_has, ?resetState⟩
  case fields =>
    exact ⟨s.resetBy_pc v, s.resetBy_sp v, s.resetBy_run v, s.resetBy_fcause v, s.resetBy_finfo v,
      s.resetBy_mem v⟩
  case resetState =>
    exact ⟨State.reset_pc, State.reset_run, State.reset_fcause, State.reset_finfo⟩

end Sys2Proof.Machine
end

section
/-! PROOFS. The encoding (30_encoding.md §1 to §4): the operand bytes of every instruction, what the
decoder answers at an opcode byte, that decoder and encoder undo each other, and which bytes are opcodes. -/

namespace Sys2Proof

/-! ### Operand bytes -/

/-- An instruction is its name with its operand bytes: none in format N, two in the other formats (R82). -/
theorem Instr.operands_cases (i : Instr) :
    (i.mnemonic.format = .n ∧ i.operands = [] ∧ Instr.ofOperands i.mnemonic 0 0 = i) ∨
      (i.mnemonic.format ≠ .n ∧ ∃ b1 b2, i.operands = [b1, b2] ∧
        Instr.ofOperands i.mnemonic b1 b2 = i) := by
  cases i with
  | ret => exact .inl ⟨rfl, rfl, rfl⟩
  | hlt => exact .inl ⟨rfl, rfl, rfl⟩
  | jmp target => exact .inr ⟨nofun, _, _, rfl, by simp [Instr.ofOperands, Instr.mnemonic]⟩
  | jz target => exact .inr ⟨nofun, _, _, rfl, by simp [Instr.ofOperands, Instr.mnemonic]⟩
  | jnz target => exact .inr ⟨nofun, _, _, rfl, by simp [Instr.ofOperands, Instr.mnemonic]⟩
  | call target => exact .inr ⟨nofun, _, _, rfl, by simp [Instr.ofOperands, Instr.mnemonic]⟩
  | _ => exact .inr ⟨nofun, _, _, rfl, rfl⟩

theorem Instr.operands_ofOperands_of_n {m : Mnemonic} (h : m.format = .n) (b1 b2 : Byte) :
    (Instr.ofOperands m b1 b2).operands = [] := by
  cases m with
  | ret => rfl
  | hlt => rfl
  | _ => cases h

/-- The operand bytes an instruction was built from are the ones it is encoded with (R82, R85). -/
theorem Instr.operands_ofOperands {m : Mnemonic} (h : m.format ≠ .n) (b1 b2 : Byte) :
    (Instr.ofOperands m b1 b2).operands = [b1, b2] := by
  cases m with
  | ret => exact absurd rfl h
  | hlt => exact absurd rfl h
  | jmp => simp [Instr.ofOperands, Instr.operands]
  | jz => simp [Instr.ofOperands, Instr.operands]
  | jnz => simp [Instr.ofOperands, Instr.operands]
  | call => simp [Instr.ofOperands, Instr.operands]
  | _ => rfl

/-- Format N has no use for operand bytes (R82). -/
theorem Instr.ofOperands_of_n {m : Mnemonic} (h : m.format = .n) (b1 b2 : Byte) :
    Instr.ofOperands m b1 b2 = Instr.ofOperands m 0 0 := by
  cases m with
  | ret => rfl
  | hlt => rfl
  | _ => cases h

/-! ### What the decoder answers at an opcode byte -/

/-- An instruction of format N is its opcode byte (R80). -/
theorem decodeWith_code_of_n (opc : OpcodeMap) {m : Mnemonic} (h : m.format = .n) (rest : List Byte) :
    decodeWith opc (opc.code m :: rest) = .ok (Instr.ofOperands m 0 0, rest) := by
  simp [decodeWith, h, Format.operandBytes]

/-- Every format but N takes the two bytes after the opcode byte (R80, R82). -/
theorem decodeWith_code (opc : OpcodeMap) {m : Mnemonic} (h : m.format ≠ .n) (b1 b2 : Byte)
    (rest : List Byte) :
    decodeWith opc (opc.code m :: b1 :: b2 :: rest) = .ok (Instr.ofOperands m b1 b2, rest) := by
  cases hf : m.format with
  | n => exact absurd hf h
  | _ => simp [decodeWith, hf, Format.operandBytes]

/-- What bytes that begin with an instruction look like: its opcode byte, then the operand bytes of its
format (R80, R87). -/
theorem decodeWith_ok {opc : OpcodeMap} {bytes : List Byte} {i : Instr} {rest : List Byte}
    (h : decodeWith opc bytes = .ok (i, rest)) :
    ∃ m, (m.format = .n ∧ bytes = opc.code m :: rest ∧ i = Instr.ofOperands m 0 0) ∨
      (m.format ≠ .n ∧ ∃ b1 b2, bytes = opc.code m :: b1 :: b2 :: rest ∧
        i = Instr.ofOperands m b1 b2) := by
  cases bytes with
  | nil => cases h
  | cons op tail =>
    cases hl : opc.lookup op with
    | none => simp [decodeWith, hl] at h
    | some m =>
      obtain rfl := (opc.lookup_some_iff op m).mp hl
      by_cases hf : m.format = .n
      · rw [decodeWith_code_of_n opc hf] at h
        cases h
        exact ⟨m, .inl ⟨hf, rfl, rfl⟩⟩
      · match tail with
        | b1 :: b2 :: tail =>
          rw [decodeWith_code opc hf] at h
          cases h
          exact ⟨m, .inr ⟨hf, b1, b2, rfl, rfl⟩⟩
        | [] | [_] => cases hm : m.format <;> simp_all [decodeWith, Format.operandBytes]

/-! ### Decoder and encoder -/

theorem decodeWith_encodeWith (opc : OpcodeMap) (i : Instr) (rest : List Byte) :
    decodeWith opc (encodeWith opc i ++ rest) = .ok (i, rest) := by
  unfold encodeWith
  obtain ⟨hf, hops, hi⟩ | ⟨hf, b1, b2, hops, hi⟩ := i.operands_cases
  · rw [hops, List.cons_append, List.nil_append, decodeWith_code_of_n opc hf, hi]
  · rw [hops, List.cons_append, List.cons_append, List.cons_append, List.nil_append,
      decodeWith_code opc hf, hi]

/-- Settles O1: at an instruction's opcode byte the decoder takes exactly its operand bytes. -/
theorem decodeInvertsEncode : Obligations.DecodeInvertsEncode := decodeWith_encodeWith

/-- Settles O2, from what bytes that begin with an instruction look like. -/
theorem encodeInvertsDecode : Obligations.EncodeInvertsDecode := by
  unfold Obligations.EncodeInvertsDecode
  intro opc bytes i rest h
  obtain ⟨m, ⟨hf, rfl, rfl⟩ | ⟨hf, b1, b2, rfl, rfl⟩⟩ := decodeWith_ok h
  · simp [encodeWith, Instr.operands_ofOperands_of_n hf]
  · simp [encodeWith, Instr.operands_ofOperands hf]

/-- Settles O4: each word is the encoding of its instruction, by the reference assignment. -/
theorem referenceWordsDecode : Obligations.ReferenceWordsDecode := by
  unfold Obligations.ReferenceWordsDecode
  have read (i : Instr) (rest : List Byte) : decode (encode i ++ rest) = .ok (i, rest) :=
    decodeWith_encodeWith _ i rest
  exact ⟨read (.movRR 0 1) [], read (.movRI 3 255) [], read (.subRI 2 1) [], read (.div 0 1) [],
    read (.jmp 0x1234) [], read (.call 0x0040) [0x0F], read .ret [0x10], read .hlt []⟩

/-! ### The image of the reference assignment -/

/-- The reference assignment counts its table from 1 (R86). -/
theorem referenceCode_all : ∀ k : Fin 16,
    (Config.referenceCode (Mnemonic.all[k]'(k.isLt))).toNat = k + 1 := by decide

theorem referenceCode_range (m : Mnemonic) :
    1 ≤ (Config.referenceCode m).toNat ∧ (Config.referenceCode m).toNat ≤ 16 := by
  cases m <;> decide

/-- The bytes that are no reference opcode: 0x00, and all above 0x10 (R88). -/
theorem referenceOpc_unmapped_iff (b : Byte) :
    (∀ m, Config.referenceOpc.code m ≠ b) ↔ b.toNat = 0x00 ∨ 0x11 ≤ b.toNat := by
  constructor
  · intro unmapped
    by_contra between
    have code := referenceCode_all ⟨b.toNat - 1, by omega⟩
    exact unmapped _ (BitVec.eq_of_toNat_eq (code.trans (Nat.sub_add_cancel (by omega))))
  · rintro outside m rfl
    have := referenceCode_range m
    change (Config.referenceCode m).toNat = _ ∨ _ ≤ (Config.referenceCode m).toNat at outside
    omega

/-- The lookup of the reference assignment, as a test on the byte's value (R88). -/
theorem referenceOpc_lookup_isNone (n : Nat) (h : n < 256) :
    (Config.referenceOpc.lookup (BitVec.ofNat 8 n)).isNone = decide (n = 0 ∨ 17 ≤ n) := by
  rw [Bool.eq_iff_iff, Option.isNone_iff_eq_none, OpcodeMap.lookup_none_iff,
    referenceOpc_unmapped_iff, BitVec.toNat_ofNat, Nat.mod_eq_of_lt h, decide_eq_true_iff]

/-- 240 bytes are no reference opcode (R88). -/
theorem referenceOpc_unmapped_count :
    ((List.range 256).filter fun n =>
      (Config.referenceOpc.lookup (BitVec.ofNat 8 n)).isNone).length = 240 := by
  rw [List.filter_congr fun n hn => referenceOpc_lookup_isNone n (List.mem_range.mp hn)]
  rfl

end Sys2Proof
end

section
/-! PROOFS. The step (40_dispatch.md §1): what the fetch makes of the three bytes from the PC up, that only
a Running core has a step, and fault entry written out. -/

namespace Sys2Proof.Machine

/-! ### The fetch and the decoder -/

/-- The fetch reads what the decoder reads from the bytes at the PC (R122). -/
theorem fetchInstr_of_decodeWith {opc : OpcodeMap} {s : State} {i : Instr} {rest : List Byte}
    (h : decodeWith opc [s.load s.pc, s.load (s.pc + 1), s.load (s.pc + 2)] = .ok (i, rest)) :
    fetchInstr opc s = .ok i := by
  obtain ⟨m, ⟨hf, hbytes, rfl⟩ | ⟨-, b1, b2, hbytes, rfl⟩⟩ := decodeWith_ok h
  · simp only [List.cons.injEq] at hbytes
    rw [fetchInstr_of_code hbytes.1.symm, Instr.ofOperands_of_n hf]
  · simp only [List.cons.injEq] at hbytes
    obtain ⟨hop, rfl, rfl, -⟩ := hbytes
    rw [fetchInstr_of_code hop.symm, addr_add_one_add_one]

/-- Settles O5: the fetch reads what the decoder reads, and a Running core runs what it fetched. -/
theorem stepRunsTheDecodedInstruction : Obligations.StepRunsTheDecodedInstruction := by
  unfold Obligations.StepRunsTheDecodedInstruction
  have run (opc : OpcodeMap) (s : State) (i : Instr) (rest : List Byte) (hr : s.run = .running)
      (h : decodeWith opc [s.load s.pc, s.load (s.pc + 1), s.load (s.pc + 2)] = .ok (i, rest)) :
      stepWith opc s = exec i s := stepWith_of_fetch hr (fetchInstr_of_decodeWith h)
  exact ⟨run, run Config.referenceOpc⟩

/-! ### Which core has a step -/

theorem stepWith_next_iff {opc : OpcodeMap} {s : State} :
    (∃ t, stepWith opc s = .next t) ↔ s.run = .running := by
  obtain ⟨hr, i, -, e⟩ | ⟨hr, f, -, e⟩ | ⟨hr, e⟩ | ⟨hr, e⟩ := stepWith_cases opc s
  · simp [hr, e, exec_next i s]
  · simp [hr, e]
  · simp [hr, e]
  · simp [hr, e]

/-- A step that answers a next state ran the fetched instruction, or took fault entry at an illegal
opcode (R122). -/
theorem stepWith_next {opc : OpcodeMap} {s t : State} (h : stepWith opc s = .next t) :
    s.run = .running ∧
      ((∃ i, fetchInstr opc s = .ok i ∧ exec i s = .next t) ∨
        (∃ f, fetchInstr opc s = .error f ∧ t = takeFault f s.pc s)) := by
  obtain ⟨hr, i, hf, e⟩ | ⟨hr, f, hf, e⟩ | ⟨-, e⟩ | ⟨-, e⟩ := stepWith_cases opc s
  · exact ⟨hr, .inl ⟨i, hf, e.symm.trans h⟩⟩
  · rw [e] at h
    cases h
    exact ⟨hr, .inr ⟨f, hf, rfl⟩⟩
  · rw [e] at h
    cases h
  · rw [e] at h
    cases h

/-- Settles O7. -/
theorem onlyARunningCoreHasAStep : Obligations.OnlyARunningCoreHasAStep := by
  unfold Obligations.OnlyARunningCoreHasAStep
  exact fun opc s => ⟨stepWith_next_iff, busWith_of_not_running⟩

/-! ### Illegal opcodes -/

/-- Fault entry at the PC writes the run state and the fault status (R234). -/
theorem takeFault_eq (f : HwFault) (s : State) :
    takeFault f s.pc s = { s with run := .faulted, fcause := f.code, finfo := f.info } := rfl

/-- Settles O3: an unmapped byte is fetched as IllegalOpcode, a mapped one as its instruction, and the
reference assignment maps 0x01 to 0x10. -/
theorem unmappedOpcodesRaiseIllegalOpcode : Obligations.UnmappedOpcodesRaiseIllegalOpcode := by
  unfold Obligations.UnmappedOpcodesRaiseIllegalOpcode
  refine ⟨fun opc s hr unmapped => ?unmapped, fun opc s m mapped => ?mapped,
    referenceOpc_unmapped_iff, referenceOpc_unmapped_count⟩
  case unmapped => exact stepWith_of_illegal hr (fetchInstr_of_unmapped unmapped)
  case mapped => exact ⟨_, fetchInstr_of_code mapped, Instr.mnemonic_ofOperands _ _ _⟩

end Sys2Proof.Machine
end

section
/-! PROOFS. The instructions with register operands (41_move.md, 42_arith.md): the state each leaves when
its index bytes are legal, and what the three kinds of write show. -/

namespace Sys2Proof.Machine

open Safety

/-! ### The state each instruction leaves -/

theorem exec_movRR_index (dst src : Reg) (s : State) :
    exec (.movRR dst.index src.index) s = .next ((s.advance 3).writeMoved dst (s.reg src)) := by
  rw [exec_movRR, execMovRR, runRR_index]
  rfl

theorem exec_movRI_index (dst : Reg) (imm : Byte) (s : State) :
    exec (.movRI dst.index imm) s = .next ((s.advance 3).writeMoved dst imm) := by
  rw [exec_movRI, execMovRI, runRI_index]
  rfl

theorem exec_addRR_index (dst src : Reg) (s : State) :
    exec (.addRR dst.index src.index) s =
      .next ((s.advance 3).writeAlu dst (aluAdd (s.reg dst) (s.reg src))) := by
  rw [exec_addRR, execAddRR, runRR_index]
  rfl

theorem exec_addRI_index (dst : Reg) (imm : Byte) (s : State) :
    exec (.addRI dst.index imm) s = .next ((s.advance 3).writeAlu dst (aluAdd (s.reg dst) imm)) := by
  rw [exec_addRI, execAddRI, runRI_index]
  rfl

theorem exec_subRR_index (dst src : Reg) (s : State) :
    exec (.subRR dst.index src.index) s =
      .next ((s.advance 3).writeAlu dst (aluSub (s.reg dst) (s.reg src))) := by
  rw [exec_subRR, execSubRR, runRR_index]
  rfl

theorem exec_subRI_index (dst : Reg) (imm : Byte) (s : State) :
    exec (.subRI dst.index imm) s = .next ((s.advance 3).writeAlu dst (aluSub (s.reg dst) imm)) := by
  rw [exec_subRI, execSubRI, runRI_index]
  rfl

theorem exec_cmpRR_index (dst src : Reg) (s : State) :
    exec (.cmpRR dst.index src.index) s =
      .next ((s.advance 3).setZC (aluSub (s.reg dst) (s.reg src)).zero
        (aluSub (s.reg dst) (s.reg src)).carry) := by
  rw [exec_cmpRR, execCmpRR, runRR_index]
  rfl

theorem exec_cmpRI_index (dst : Reg) (imm : Byte) (s : State) :
    exec (.cmpRI dst.index imm) s =
      .next ((s.advance 3).setZC (aluSub (s.reg dst) imm).zero (aluSub (s.reg dst) imm).carry) := by
  rw [exec_cmpRI, execCmpRI, runRI_index]
  rfl

theorem exec_mul_index (dst src : Reg) (s : State) :
    exec (.mul dst.index src.index) s =
      .next ((s.advance 3).writeAlu dst (aluMul (s.reg dst) (s.reg src))) := by
  rw [exec_mul, execMul, runRR_index]
  rfl

/-- DIV by zero is fault entry with the divisor's index (R163). -/
theorem exec_div_index_zero (dst : Reg) {src : Reg} {s : State} (h : s.reg src = 0) :
    exec (.div dst.index src.index) s = .next (takeFault (.divideByZero src.index) s.pc s) := by
  have none : aluDiv ((s.advance 3).reg dst) ((s.advance 3).reg src) = none :=
    (aluDiv_none_iff _ _).mpr (congrArg BitVec.toNat h)
  rw [exec_div, execDiv, runRR_index]
  simp only [none, settle, takeFault_advance]

/-- DIV by any other divisor writes a value of the divider (R163). -/
theorem exec_div_index (dst : Reg) {src : Reg} {s : State} (h : s.reg src ≠ 0) :
    ∃ q, aluDiv (s.reg dst) (s.reg src) = some q ∧
      exec (.div dst.index src.index) s = .next ((s.advance 3).writeMoved dst q) := by
  cases hq : aluDiv (s.reg dst) (s.reg src) with
  | none => exact absurd (BitVec.eq_of_toNat_eq ((aluDiv_none_iff _ _).mp hq)) h
  | some q =>
    have some : aluDiv ((s.advance 3).reg dst) ((s.advance 3).reg src) = some q := hq
    refine ⟨q, rfl, ?_⟩
    rw [exec_div, execDiv, runRR_index]
    simp only [some, settle]

/-! ### What the writes show -/

@[simp] theorem State.reg_writeMoved_same (s : State) (r : Reg) (v : Byte) :
    (s.writeMoved r v).reg r = v := by
  rw [State.reg_eq, State.writeMoved_regs, RegFile.get_set_same]

@[simp] theorem State.reg_writeAlu_same (s : State) (r : Reg) (o : AluOut) :
    (s.writeAlu r o).reg r = o.result := by
  rw [State.reg_eq, State.writeAlu_regs, RegFile.get_set_same]

/-- A three-byte instruction that writes at most one register and the flags leaves the rest alone (R22, R26). -/
theorem frame_of_register {s t : State} {dst : Reg} {v : Byte} (hregs : t.regs = s.regs.set dst v)
    (hpc : t.pc = s.pc + 3) (hsp : t.sp = s.sp) (hstatus : SameStatus s t) (hmem : t.mem = s.mem) :
    t.pc = s.pc + 3 ∧ t.sp = s.sp ∧ SameRegsBut dst s t ∧ SameStatus s t ∧ SameBytes s t := by
  refine ⟨hpc, hsp, fun r hr => ?_, hstatus, fun a => ?_⟩
  · rw [State.reg_eq, hregs, RegFile.get_set_other _ v hr, ← State.reg_eq]
  · rw [State.load_eq, hmem, ← State.load_eq]

theorem writeMoved_frame (dst : Reg) (v : Byte) (s : State) :
    let t := (s.advance 3).writeMoved dst v
    t.pc = s.pc + 3 ∧ t.sp = s.sp ∧ SameRegsBut dst s t ∧ SameStatus s t ∧ SameBytes s t :=
  frame_of_register (v := v) rfl rfl rfl ⟨rfl, rfl, rfl⟩ rfl

theorem writeAlu_frame (dst : Reg) (o : AluOut) (s : State) :
    let t := (s.advance 3).writeAlu dst o
    t.pc = s.pc + 3 ∧ t.sp = s.sp ∧ SameRegsBut dst s t ∧ SameStatus s t ∧ SameBytes s t :=
  frame_of_register (v := o.result) rfl rfl rfl ⟨rfl, rfl, rfl⟩ rfl

theorem setZC_frame (z c : Bool) (s : State) :
    let t := (s.advance 3).setZC z c
    t.pc = s.pc + 3 ∧ t.sp = s.sp ∧ SameRegs s t ∧ SameStatus s t ∧ SameBytes s t :=
  ⟨rfl, rfl, fun _ => rfl, ⟨rfl, rfl, rfl⟩, fun _ => rfl⟩

theorem zeroFlag_iff_eq_zero (v : Byte) : zeroFlag v = true ↔ v = 0 := by
  rw [zeroFlag_iff, ← BitVec.toNat_inj]
  rfl

/-- What a MOV shows of the value moved (R140, R141). -/
theorem writeMoved_shows (dst : Reg) (v : Byte) (s : State) :
    let t := (s.advance 3).writeMoved dst v
    t.reg dst = v ∧ (t.z = true ↔ v = 0) ∧ t.c = s.c ∧ t.pc = s.pc + 3 ∧ t.sp = s.sp ∧
      SameRegsBut dst s t ∧ SameStatus s t ∧ SameBytes s t :=
  ⟨State.reg_writeMoved_same _ _ _, zeroFlag_iff_eq_zero v, rfl, writeMoved_frame dst v s⟩

/-- Settles O12. -/
theorem movRegisterCopiesAndTestsZero : Obligations.MovRegisterCopiesAndTestsZero := by
  unfold Obligations.MovRegisterCopiesAndTestsZero
  exact fun dst src s => ⟨_, exec_movRR_index dst src s, writeMoved_shows dst (s.reg src) s⟩

/-- Settles O13. -/
theorem movImmediateLoadsAndTestsZero : Obligations.MovImmediateLoadsAndTestsZero := by
  unfold Obligations.MovImmediateLoadsAndTestsZero
  exact fun dst imm s => ⟨_, exec_movRI_index dst imm s, writeMoved_shows dst imm s⟩

/-! ### ADD -/

/-- What an ADD of `a` and `b` shows (R152, R153). -/
theorem writeAlu_aluAdd_shows (dst : Reg) (a b : Byte) (s : State) :
    let t := (s.advance 3).writeAlu dst (aluAdd a b)
    (t.reg dst).toNat = (a.toNat + b.toNat) % 256 ∧
      (t.z = true ↔ (a.toNat + b.toNat) % 256 = 0) ∧ (t.c = true ↔ a.toNat + b.toNat > 255) ∧
      t.pc = s.pc + 3 ∧ t.sp = s.sp ∧ SameRegsBut dst s t ∧ SameStatus s t ∧ SameBytes s t := by
  obtain ⟨hresult, hzero, hcarry⟩ := aluAdd_spec a b
  refine ⟨?_, ?_, ?_, writeAlu_frame dst _ s⟩
  · rw [State.reg_writeAlu_same, hresult]
  · rw [State.writeAlu_z, hzero, decide_eq_true_iff]
  · rw [State.writeAlu_c, hcarry, decide_eq_true_iff]

/-- Settles O14. -/
theorem addRegisterSumsModulo256 : Obligations.AddRegisterSumsModulo256 := by
  unfold Obligations.AddRegisterSumsModulo256
  exact fun dst src s =>
    ⟨_, exec_addRR_index dst src s, writeAlu_aluAdd_shows dst (s.reg dst) (s.reg src) s⟩

/-- Settles O15. -/
theorem addImmediateSumsModulo256 : Obligations.AddImmediateSumsModulo256 := by
  unfold Obligations.AddImmediateSumsModulo256
  exact fun dst imm s => ⟨_, exec_addRI_index dst imm s, writeAlu_aluAdd_shows dst (s.reg dst) imm s⟩

/-! ### SUB and CMP -/

/-- The 8-bit difference is the integer difference mod 256 (R150). -/
theorem toNat_sub_eq_emod (a b : Byte) :
    ((a - b).toNat : Int) = ((a.toNat : Int) - b.toNat) % 256 := by
  have := a.isLt
  have := b.isLt
  rw [BitVec.toNat_sub]
  omega

/-- What the two flags of a subtraction of `b` from `a` tell (R155 to R159). -/
theorem aluSub_flags (a b : Byte) :
    ((aluSub a b).zero = true ↔ a = b) ∧ ((aluSub a b).carry = true ↔ a.toNat < b.toNat) := by
  obtain ⟨-, hzero, hcarry⟩ := aluSub_spec a b
  rw [hzero, hcarry, decide_eq_true_iff, decide_eq_true_iff]
  exact ⟨Iff.rfl, Iff.rfl⟩

/-- What a SUB of `b` from `a` shows (R155, R156). -/
theorem writeAlu_aluSub_shows (dst : Reg) (a b : Byte) (s : State) :
    let t := (s.advance 3).writeAlu dst (aluSub a b)
    ((t.reg dst).toNat : Int) = ((a.toNat : Int) - b.toNat) % 256 ∧ (t.z = true ↔ a = b) ∧
      (t.c = true ↔ a.toNat < b.toNat) ∧
      t.pc = s.pc + 3 ∧ t.sp = s.sp ∧ SameRegsBut dst s t ∧ SameStatus s t ∧ SameBytes s t := by
  obtain ⟨hzero, hcarry⟩ := aluSub_flags a b
  refine ⟨?_, hzero, hcarry, writeAlu_frame dst _ s⟩
  rw [State.reg_writeAlu_same, (aluSub_spec a b).1, toNat_sub_eq_emod]

/-- Settles O16. -/
theorem subRegisterDiffersModulo256 : Obligations.SubRegisterDiffersModulo256 := by
  unfold Obligations.SubRegisterDiffersModulo256
  exact fun dst src s =>
    ⟨_, exec_subRR_index dst src s, writeAlu_aluSub_shows dst (s.reg dst) (s.reg src) s⟩

/-- Settles O17. -/
theorem subImmediateDiffersModulo256 : Obligations.SubImmediateDiffersModulo256 := by
  unfold Obligations.SubImmediateDiffersModulo256
  exact fun dst imm s => ⟨_, exec_subRI_index dst imm s, writeAlu_aluSub_shows dst (s.reg dst) imm s⟩

/-- What a CMP of `a` with `b` shows (R158, R159). -/
theorem setZC_aluSub_shows (a b : Byte) (s : State) :
    let t := (s.advance 3).setZC (aluSub a b).zero (aluSub a b).carry
    (t.z = true ↔ a = b) ∧ (t.c = true ↔ a.toNat < b.toNat) ∧
      t.pc = s.pc + 3 ∧ t.sp = s.sp ∧ SameRegs s t ∧ SameStatus s t ∧ SameBytes s t := by
  obtain ⟨hzero, hcarry⟩ := aluSub_flags a b
  exact ⟨hzero, hcarry, setZC_frame _ _ s⟩

/-- Settles O18. -/
theorem compareRegistersSetsFlagsOnly : Obligations.CompareRegistersSetsFlagsOnly := by
  unfold Obligations.CompareRegistersSetsFlagsOnly
  exact fun dst src s => ⟨_, exec_cmpRR_index dst src s, setZC_aluSub_shows (s.reg dst) (s.reg src) s⟩

/-- Settles O19. -/
theorem compareImmediateSetsFlagsOnly : Obligations.CompareImmediateSetsFlagsOnly := by
  unfold Obligations.CompareImmediateSetsFlagsOnly
  exact fun dst imm s => ⟨_, exec_cmpRI_index dst imm s, setZC_aluSub_shows (s.reg dst) imm s⟩

/-! ### MUL and DIV -/

/-- Settles O20, from the multiplier's result and flags. -/
theorem mulKeepsLowByteOfProduct : Obligations.MulKeepsLowByteOfProduct := by
  unfold Obligations.MulKeepsLowByteOfProduct
  intro dst src s
  obtain ⟨hresult, hzero, hcarry⟩ := aluMul_spec (s.reg dst) (s.reg src)
  refine ⟨_, exec_mul_index dst src s, ?_, ?_, ?_, writeAlu_frame dst _ s⟩
  · rw [State.reg_writeAlu_same, hresult]
  · rw [State.writeAlu_z, hzero, decide_eq_true_iff]
  · rw [State.writeAlu_c, hcarry, decide_eq_true_iff]

/-- Settles O21: the divider's value is the floor quotient, which is 0 exactly below the divisor. -/
theorem divStoresFloorQuotient : Obligations.DivStoresFloorQuotient := by
  unfold Obligations.DivStoresFloorQuotient
  intro dst src s hne
  obtain ⟨q, hq, hexec⟩ := exec_div_index dst hne
  obtain ⟨hdivisor, hquotient⟩ := aluDiv_toNat hq
  refine ⟨_, hexec, ?_, ?_, ?_, rfl, writeMoved_frame dst q s⟩
  · rw [State.reg_writeMoved_same, hquotient]
    exact Nat.div_mul_le_self _ _
  · rw [State.reg_writeMoved_same, hquotient]
    exact (Nat.div_lt_iff_lt_mul (Nat.pos_of_ne_zero hdivisor)).mp (Nat.lt_succ_self _)
  · rw [State.writeMoved_z, zeroFlag_iff, hquotient, Nat.div_eq_zero_iff]
    exact or_iff_right hdivisor

/-- Settles O22: with a divisor of 0 the instruction is fault entry. -/
theorem divByZeroFaultsWithoutAValue : Obligations.DivByZeroFaultsWithoutAValue := by
  unfold Obligations.DivByZeroFaultsWithoutAValue
  intro dst src s hzero
  rw [exec_div_index_zero dst hzero, takeFault_eq]
  rfl

end Sys2Proof.Machine
end

section
/-! PROOFS. Control transfer and halt (43_control.md, 44_halt.md): the state each of the six instructions
leaves, and the laws of CALL with RET. -/

namespace Sys2Proof.Machine

open Safety

/-! ### JMP, JZ, JNZ and HLT -/

theorem exec_jmp_eq (target : Addr) (s : State) :
    exec (.jmp target) s = .next { s with pc := target } := rfl

theorem exec_jz_eq (target : Addr) (s : State) :
    exec (.jz target) s = .next { s with pc := if s.z = true then target else s.pc + 3 } := by
  have branch : exec (.jz target) s =
      .next (if s.z = true then (s.advance 3).setPc target else s.advance 3) := rfl
  rw [branch]
  split <;> rfl

theorem exec_jnz_eq (target : Addr) (s : State) :
    exec (.jnz target) s = .next { s with pc := if s.z = true then s.pc + 3 else target } := by
  have branch : exec (.jnz target) s =
      .next (if s.z = true then s.advance 3 else (s.advance 3).setPc target) := rfl
  rw [branch]
  split <;> rfl

theorem exec_hlt_eq (s : State) : exec .hlt s = .next { s with run := .halted, pc := s.pc + 1 } := rfl

/-- Settles O24. -/
theorem jmpSetsPcToTarget : Obligations.JmpSetsPcToTarget := exec_jmp_eq

/-- Settles O25. -/
theorem jzBranchesWhenZero : Obligations.JzBranchesWhenZero := exec_jz_eq

/-- Settles O26. -/
theorem jnzBranchesWhenNotZero : Obligations.JnzBranchesWhenNotZero := exec_jnz_eq

/-- Settles O34. -/
theorem hltHaltsAndChangesNothingElse : Obligations.HltHaltsAndChangesNothingElse := exec_hlt_eq

/-- Settles O33: each step sets the PC to the value it has. -/
theorem jmpToItselfNeverEnds : Obligations.JmpToItselfNeverEnds := by
  unfold Obligations.JmpToItselfNeverEnds
  intro opc n s hr hf
  have hstep : stepWith opc s = .next s := (stepWith_of_fetch hr hf).trans (exec_jmp_eq s.pc s)
  induction n with
  | zero => rfl
  | succ n ih =>
    rw [runWith, hstep]
    exact ih

/-! ### CALL and RET -/

theorem exec_call_eq (target : Addr) (s : State) :
    exec (.call target) s = .next ((s.push16 (s.pc + 3)).setPc target) := rfl

theorem exec_ret_eq (s : State) :
    exec .ret s = .next { s with pc := word16 (s.load (s.sp + 1)) (s.load s.sp), sp := s.sp + 2 } := by
  rw [← addr_add_one_add_one]
  rfl

/-- Settles O27, from where the two bytes of the push lie. -/
theorem callPushesReturnAddress : Obligations.CallPushesReturnAddress := by
  unfold Obligations.CallPushesReturnAddress
  refine fun target s => ⟨_, exec_call_eq target s, rfl, s.push16_sp _, ?high, ?low,
    fun a h1 h2 => ?other, rfl, rfl, fun _ => rfl, ⟨rfl, rfl, rfl⟩⟩
  case high => exact (congrArg BitVec.toNat (s.push16_load_high _)).trans (hiByte_toNat _)
  case low => exact (congrArg BitVec.toNat (s.push16_load_low _)).trans (loByte_toNat _)
  case other => exact s.push16_read_other _ a h1 (by rwa [addr_sub_one_sub_one])

/-- Settles O28. -/
theorem retPopsReturnAddress : Obligations.RetPopsReturnAddress := by
  unfold Obligations.RetPopsReturnAddress
  exact fun s => ⟨_, exec_ret_eq s, word16_toNat _ _, rfl, rfl, rfl, fun _ => rfl, ⟨rfl, rfl, rfl⟩,
    fun _ => rfl⟩

/-- A RET that finds SP and the pushed pair as the CALL left them goes back past the CALL (R198). -/
theorem exec_ret_of_exec_call {target : Addr} {s t u : State} (hcall : exec (.call target) s = .next t)
    (hsp : u.sp = t.sp) (hlow : u.load t.sp = t.load t.sp)
    (hhigh : u.load (t.sp + 1) = t.load (t.sp + 1)) :
    ∃ v, exec .ret u = .next v ∧ v.pc = s.pc + 3 ∧ v.sp = s.sp := by
  rw [exec_call_eq] at hcall
  cases hcall
  have htsp : ((s.push16 (s.pc + 3)).setPc target).sp = s.sp - 2 := s.push16_sp _
  rw [htsp] at hsp hlow hhigh
  rw [addr_sub_two_add_one] at hhigh
  refine ⟨_, exec_ret_eq u, ?pc, ?sp⟩
  case pc =>
    change word16 (u.load (u.sp + 1)) (u.load u.sp) = s.pc + 3
    rw [hsp, addr_sub_two_add_one, hlow, hhigh]
    change word16 ((s.push16 _).load _) ((s.push16 _).load _) = s.pc + 3
    rw [State.push16_load_high, State.push16_load_low, word16_hiByte_loByte]
  case sp =>
    change u.sp + 2 = s.sp
    rw [hsp]
    exact BitVec.sub_add_cancel s.sp 2

/-- Settles O32: the general law, and its case in which nothing runs between the two. -/
theorem callThenRetIsBalanced : Obligations.CallThenRetIsBalanced := by
  unfold Obligations.CallThenRetIsBalanced
  refine ⟨fun target s t u hcall hsp hlow hhigh => exec_ret_of_exec_call hcall hsp hlow hhigh,
    fun opc target s t hr hf hstep hret => ?twoSteps⟩
  case twoSteps =>
    rw [stepWith_of_fetch hr hf] at hstep
    have htpc : t.pc = target := by
      rw [exec_call_eq] at hstep
      cases hstep
      rfl
    have htrun : t.run = .running := (run_of_exec_call hstep).trans hr
    have hfetch : fetchInstr opc t = .ok .ret :=
      fetchInstr_of_code (m := .ret) (by rw [htpc, hret])
    rw [stepWith_of_fetch htrun hfetch]
    exact exec_ret_of_exec_call hstep rfl rfl rfl

end Sys2Proof.Machine
end

section
/-! PROOFS. Rules about every instruction (10_state.md §2 to §5, 20_memory.md §1, 60_exceptions.md §1): the
control instructions and the others apart, then PC, SP, memory, flags and run state after each, and the
shape of every state that a fault leaves. -/

namespace Sys2Proof.Machine

open Safety

/-! ### The control instructions and the others -/

/-- The six instructions with no register operand (43_control.md, 44_halt.md). -/
abbrev controlNames : List Mnemonic := [.jmp, .jz, .jnz, .call, .ret, .hlt]

/-- What a control instruction leaves of flags, run state and fault status (R30, R220, R231). -/
theorem exec_control {i : Instr} (hi : i.mnemonic ∈ controlNames) (s : State) :
    ∃ t, exec i s = .next t ∧ t.z = s.z ∧ t.c = s.c ∧
      t.run = (if i = .hlt then .halted else s.run) ∧ t.fcause = s.fcause ∧ t.finfo = s.finfo := by
  cases i with
  | jmp target => exact ⟨_, exec_jmp_eq target s, rfl, rfl, rfl, rfl, rfl⟩
  | jz target => exact ⟨_, exec_jz_eq target s, rfl, rfl, rfl, rfl, rfl⟩
  | jnz target => exact ⟨_, exec_jnz_eq target s, rfl, rfl, rfl, rfl, rfl⟩
  | call target => exact ⟨_, exec_call_eq target s, rfl, rfl, rfl, rfl, rfl⟩
  | ret => exact ⟨_, exec_ret_eq s, rfl, rfl, rfl, rfl, rfl⟩
  | hlt => exact ⟨_, exec_hlt_eq s, rfl, rfl, rfl, rfl, rfl⟩
  | _ => simp [Instr.mnemonic] at hi

/-- Every other instruction takes fault entry, or writes registers and flags and moves past its three
bytes (R22, R26, R234). -/
theorem exec_not_control {i : Instr} {s t : State} (hi : i.mnemonic ∉ controlNames)
    (h : exec i s = .next t) :
    (∃ f, t = takeFault f s.pc s) ∨
      ∃ x z c, t = { s with regs := x, z := z, c := c, pc := s.pc + 3 } := by
  cases exec_effect h with
  | illegalRegister b _ _ _ eq => exact .inl ⟨_, eq⟩
  | divideByZero _ _ _ _ eq => exact .inl ⟨_, eq⟩
  | register dst v z c eq => exact .inr ⟨_, z, c, eq⟩
  | flags z c eq => exact .inr ⟨s.regs, z, c, eq⟩
  | jump _ instr _ =>
    have control : i.mnemonic ∈ controlNames := List.mem_append_left [Mnemonic.call, .ret, .hlt] instr
    exact absurd control hi
  | call _ instr _ => simp [instr, Instr.mnemonic] at hi
  | ret instr _ => simp [instr, Instr.mnemonic] at hi
  | halt instr _ => simp [instr, Instr.mnemonic] at hi

/-- Settles O43. -/
theorem controlInstructionsNeverFault : Obligations.ControlInstructionsNeverFault := by
  unfold Obligations.ControlInstructionsNeverFault
  intro i s hi hr
  obtain ⟨t, h, -, -, hrun, hcause, hinfo⟩ := exec_control hi s
  exact ⟨t, h, by rw [hrun, hr], hcause, hinfo⟩

/-! ### SP and memory -/

/-- Settles O36: CALL and RET by their equations; JMP, JZ, JNZ and HLT write no SP, and neither does an
instruction with register operands. -/
theorem onlyCallAndRetMoveSp : Obligations.OnlyCallAndRetMoveSp := by
  unfold Obligations.OnlyCallAndRetMoveSp
  have others {i : Instr} {s t : State} (hi : i.mnemonic ∉ controlNames) (h : exec i s = .next t) :
      t.sp = s.sp := by
    obtain ⟨f, rfl⟩ | ⟨x, z, c, rfl⟩ := exec_not_control hi h <;> rfl
  intro i s t h
  cases i with
  | call target =>
    rw [exec_call_eq] at h
    cases h
    exact s.push16_sp _
  | ret =>
    rw [exec_ret_eq] at h
    cases h
    rfl
  | jmp target => cases h; rfl
  | jz target =>
    rw [exec_jz_eq] at h
    cases h
    rfl
  | jnz target =>
    rw [exec_jnz_eq] at h
    cases h
    rfl
  | hlt => cases h; rfl
  | _ => exact others (by simp [Instr.mnemonic]) h

/-- Only CALL leaves another memory than it found (R51). -/
theorem mem_of_exec {i : Instr} {s t : State} (h : exec i s = .next t) (hcall : ∀ target, i ≠ .call target) :
    t.mem = s.mem := by
  cases exec_effect h with
  | call target instr _ => exact absurd instr (hcall target)
  | illegalRegister _ _ _ _ eq => rw [eq, takeFault_mem]
  | divideByZero _ _ _ _ eq => rw [eq, takeFault_mem]
  | register _ _ _ _ eq => rw [eq]
  | flags _ _ eq => rw [eq]
  | jump _ _ eq => rw [eq]
  | ret _ eq => rw [eq]
  | halt _ eq => rw [eq]

/-- Settles O38. -/
theorem onlyCallWritesMemory : Obligations.OnlyCallWritesMemory :=
  fun _ _ _ h hcall => mem_of_exec h hcall

/-! ### Faults -/

/-- An instruction that leaves a Running core Faulted took IllegalRegister at one of its operand bytes, or
DivideByZero (R231, R234). -/
theorem exec_faulted {i : Instr} {s t : State} (hr : s.run = .running) (h : exec i s = .next t)
    (ht : t.run = .faulted) :
    (∃ b ∈ i.operands, legalIndex b = false ∧ t = takeFault (.illegalRegister b) s.pc s) ∨
      (∃ dst src, i = .div (Reg.index dst) (Reg.index src) ∧ s.reg src = 0 ∧
        t = takeFault (.divideByZero src.index) s.pc s) := by
  cases exec_effect h with
  | illegalRegister b mem _ illegal eq => exact .inl ⟨b, mem, illegal, eq⟩
  | divideByZero dst src instr zero eq => exact .inr ⟨dst, src, instr, zero, eq⟩
  | register _ _ _ _ eq => simp [eq, hr] at ht
  | flags _ _ eq => simp [eq, hr] at ht
  | jump _ _ eq => simp [eq, hr] at ht
  | call _ _ eq => simp [eq, State.push16_eq, hr] at ht
  | ret _ eq => simp [eq, hr] at ht
  | halt _ eq => simp [eq] at ht

/-- A step that ends in Faulted is fault entry from the state before it (R234). -/
theorem stepWith_faulted {opc : OpcodeMap} {s t : State} (h : stepWith opc s = .next t)
    (ht : t.run = .faulted) : ∃ f, t = takeFault f s.pc s := by
  obtain ⟨hr, ⟨i, -, he⟩ | ⟨f, -, eq⟩⟩ := stepWith_next h
  · obtain ⟨b, -, -, eq⟩ | ⟨-, src, -, -, eq⟩ := exec_faulted hr he ht
    · exact ⟨_, eq⟩
    · exact ⟨_, eq⟩
  · exact ⟨f, eq⟩

/-- The operand bytes of a fetched instruction are the two bytes after its opcode byte (R55, R82). -/
theorem load_of_mem_operands {opc : OpcodeMap} {s : State} {i : Instr} (hf : fetchInstr opc s = .ok i)
    {b : Byte} (hb : b ∈ i.operands) : b = s.load (s.pc + 1) ∨ b = s.load (s.pc + 2) := by
  obtain ⟨-, e⟩ | ⟨m, -, e⟩ := fetchInstr_cases opc s
  · rw [e] at hf
    cases hf
  · rw [e] at hf
    cases hf
    by_cases hm : m.format = .n
    · simp [Instr.operands_ofOperands_of_n hm] at hb
    · rw [Instr.operands_ofOperands hm, addr_add_one_add_one] at hb
      simpa using hb

/-- A fetch that fails is IllegalOpcode with the byte at the PC, which is no opcode (R88). -/
theorem fetchInstr_error {opc : OpcodeMap} {s : State} {f : HwFault} (hf : fetchInstr opc s = .error f) :
    f = .illegalOpcode (s.load s.pc) ∧ opc.lookup (s.load s.pc) = none := by
  obtain ⟨hl, e⟩ | ⟨m, -, e⟩ := fetchInstr_cases opc s
  · rw [e] at hf
    cases hf
    exact ⟨rfl, hl⟩
  · rw [e] at hf
    cases hf

/-- Settles O42: IllegalOpcode comes from the fetch, the other two faults from the instruction fetched. -/
theorem faultsArePrecise : Obligations.FaultsArePrecise := by
  unfold Obligations.FaultsArePrecise
  intro opc s t h ht
  obtain ⟨hr, ⟨i, hf, he⟩ | ⟨f, hf, rfl⟩⟩ := stepWith_next h
  · obtain ⟨b, hb, illegal, rfl⟩ | ⟨dst, src, rfl, hzero, rfl⟩ := exec_faulted hr he ht
    · exact ⟨2, b, takeFault_eq _ s,
        .inr (.inl ⟨rfl, legalIndex_eq_false_iff.mp illegal, load_of_mem_operands hf hb⟩)⟩
    · exact ⟨3, src.index, takeFault_eq _ s, .inr (.inr ⟨rfl, src, rfl, hzero, dst.index, hf⟩)⟩
  · obtain ⟨rfl, unmapped⟩ := fetchInstr_error hf
    exact ⟨1, s.load s.pc, takeFault_eq _ s,
      .inl ⟨rfl, rfl, (opc.lookup_none_iff _).mp unmapped⟩⟩

/-- Settles O39. -/
theorem controlAndFaultsKeepFlags : Obligations.ControlAndFaultsKeepFlags := by
  unfold Obligations.ControlAndFaultsKeepFlags
  refine ⟨fun i s t hi h => ?control, fun opc s t h ht => ?fault⟩
  case control =>
    obtain ⟨t', h', hz, hc, -⟩ := exec_control hi s
    cases h.symm.trans h'
    exact ⟨hz, hc⟩
  case fault =>
    obtain ⟨f, rfl⟩ := stepWith_faulted h ht
    exact ⟨rfl, rfl⟩

/-! ### The run state -/

/-- A step of a Running core that ends in Halted ran HLT (R31). -/
theorem eq_hlt_of_halted {i : Instr} {s t : State} (hr : s.run = .running) (h : exec i s = .next t)
    (ht : t.run = .halted) : i = .hlt := by
  cases exec_effect h with
  | halt instr _ => exact instr
  | illegalRegister _ _ _ _ eq => simp [eq] at ht
  | divideByZero _ _ _ _ eq => simp [eq] at ht
  | register _ _ _ _ eq => simp [eq, hr] at ht
  | flags _ _ eq => simp [eq, hr] at ht
  | jump _ _ eq => simp [eq, hr] at ht
  | call _ _ eq => simp [eq, State.push16_eq, hr] at ht
  | ret _ eq => simp [eq, hr] at ht

/-- Settles O35. -/
theorem onlyHltReachesHalted : Obligations.OnlyHltReachesHalted := by
  unfold Obligations.OnlyHltReachesHalted
  intro opc s t hr h
  constructor
  · intro ht
    obtain ⟨-, ⟨i, hf, he⟩ | ⟨f, -, rfl⟩⟩ := stepWith_next h
    · rw [hf, eq_hlt_of_halted hr he ht]
    · simp at ht
  · intro hf
    rw [stepWith_of_fetch hr hf, exec_hlt_eq] at h
    cases h
    rfl

/-! ### The PC -/

/-- Settles O37: a fault puts the PC back; the control instructions leave it where their equations say, and
every other instruction past its three bytes. -/
theorem pcAfterEveryInstruction : Obligations.PcAfterEveryInstruction := by
  unfold Obligations.PcAfterEveryInstruction
  have others {i : Instr} {s t : State} (hi : i.mnemonic ∉ controlNames) (h : exec i s = .next t)
      (ht : t.run ≠ .faulted) : t.pc = s.pc + 3 := by
    obtain ⟨f, rfl⟩ | ⟨x, z, c, rfl⟩ := exec_not_control hi h
    · exact absurd (takeFault_run f s.pc s) ht
    · rfl
  intro opc s t h
  refine ⟨fun ht => ?fault, fun ht => ?next⟩
  case fault =>
    obtain ⟨f, rfl⟩ := stepWith_faulted h ht
    rfl
  case next =>
    obtain ⟨-, ⟨i, hf, he⟩ | ⟨f, -, rfl⟩⟩ := stepWith_next h
    · refine ⟨i, hf, ?_⟩
      cases i with
      | jmp target => cases he; rfl
      | jz target =>
        rw [exec_jz_eq] at he
        cases he
        rfl
      | jnz target =>
        rw [exec_jnz_eq] at he
        cases he
        cases s.z <;> rfl
      | call target => cases he; rfl
      | ret =>
        rw [exec_ret_eq] at he
        cases he
        rfl
      | hlt => cases he; rfl
      | _ => exact others (by simp [Instr.mnemonic]) he ht
    · exact absurd (takeFault_run f s.pc s) ht

/-! ### Illegal register bytes -/

/-- The instructions with two register operands (R82). -/
abbrev registerPairForms : List (Byte → Byte → Instr) := [.movRR, .addRR, .subRR, .cmpRR, .mul, .div]

/-- The instructions with a register and an immediate (R82). -/
abbrev immediateForms : List (Byte → Byte → Instr) := [.movRI, .addRI, .subRI, .cmpRI]

/-- A register pair instruction runs its lines in the shape of its format (R125). -/
theorem exec_eq_runRR {f : Byte → Byte → Instr} (hf : f ∈ registerPairForms) :
    ∃ body, ∀ b1 b2 s, exec (f b1 b2) s = runRR b1 b2 s body := by
  simp only [List.mem_cons, List.not_mem_nil, or_false] at hf
  rcases hf with rfl | rfl | rfl | rfl | rfl | rfl
  · exact ⟨_, exec_movRR⟩
  · exact ⟨_, exec_addRR⟩
  · exact ⟨_, exec_subRR⟩
  · exact ⟨_, exec_cmpRR⟩
  · exact ⟨_, exec_mul⟩
  · exact ⟨_, exec_div⟩

/-- A register-immediate instruction runs its lines in the shape of its format (R125). -/
theorem exec_eq_runRI {f : Byte → Byte → Instr} (hf : f ∈ immediateForms) :
    ∃ body, ∀ b1 b2 s, exec (f b1 b2) s = runRI b1 b2 s body := by
  simp only [List.mem_cons, List.not_mem_nil, or_false] at hf
  rcases hf with rfl | rfl | rfl | rfl
  · exact ⟨_, exec_movRI⟩
  · exact ⟨_, exec_addRI⟩
  · exact ⟨_, exec_subRI⟩
  · exact ⟨_, exec_cmpRI⟩

/-- An illegal byte 1 is reported whatever byte 2 is (R125). -/
theorem exec_pair_illegal_first {f : Byte → Byte → Instr} (hf : f ∈ registerPairForms) {b1 b2 : Byte}
    (h1 : legalIndex b1 = false) (s : State) :
    exec (f b1 b2) s = .next (takeFault (.illegalRegister b1) s.pc s) := by
  obtain ⟨body, hrun⟩ := exec_eq_runRR hf
  obtain ⟨dst, src, rfl, -⟩ | ⟨-, e⟩ | ⟨legal, -⟩ := runRR_cases b1 b2 s body
  · cases dst <;> cases h1
  · rw [hrun, e, takeFault_advance]
  · rw [h1] at legal
    cases legal

/-- An illegal byte 2 is reported when byte 1 is legal (R125). -/
theorem exec_pair_illegal_second {f : Byte → Byte → Instr} (hf : f ∈ registerPairForms) {b1 b2 : Byte}
    (h1 : legalIndex b1 = true) (h2 : legalIndex b2 = false) (s : State) :
    exec (f b1 b2) s = .next (takeFault (.illegalRegister b2) s.pc s) := by
  obtain ⟨body, hrun⟩ := exec_eq_runRR hf
  obtain ⟨dst, src, -, rfl, -⟩ | ⟨illegal, -⟩ | ⟨-, -, e⟩ := runRR_cases b1 b2 s body
  · cases src <;> cases h2
  · rw [h1] at illegal
    cases illegal
  · rw [hrun, e, takeFault_advance]

/-- An illegal byte 1 is reported whatever the immediate is (R125). -/
theorem exec_immediate_illegal {f : Byte → Byte → Instr} (hf : f ∈ immediateForms) {b imm : Byte}
    (h : legalIndex b = false) (s : State) :
    exec (f b imm) s = .next (takeFault (.illegalRegister b) s.pc s) := by
  obtain ⟨body, hrun⟩ := exec_eq_runRI hf
  obtain ⟨dst, rfl, -⟩ | ⟨-, e⟩ := runRI_cases b imm s body
  · cases dst <;> cases h
  · rw [hrun, e, takeFault_advance]

/-- Settles O41. -/
theorem firstIllegalRegisterByteIsReported : Obligations.FirstIllegalRegisterByteIsReported := by
  unfold Obligations.FirstIllegalRegisterByteIsReported
  refine ⟨fun f hf b1 b2 s => ⟨fun h1 => ?first, fun h1 h2 => ?second⟩, fun f hf b1 imm s h => ?only⟩
  case first => exact exec_pair_illegal_first hf (legalIndex_eq_false_iff.mpr h1) s
  case second =>
    exact exec_pair_illegal_second hf (legalIndex_eq_true_iff.mpr h1) (legalIndex_eq_false_iff.mpr h2) s
  case only => exact exec_immediate_illegal hf (legalIndex_eq_false_iff.mpr h) s

end Sys2Proof.Machine
end

section
/-! PROOFS. The machine's invariant (20_memory.md §1, 60_exceptions.md §1): every step keeps it, reset meets
it, and so does every session the host can reach. -/

namespace Sys2Proof.Safety

open Sys2Proof.Machine

/-! ### The two parts of the invariant -/

theorem invWith_iff {opc : OpcodeMap} {s : State} :
    invWith opc s = true ↔ s.mem.wf = true ∧ faultStatusOk opc s = true := by
  simp [invWith]

/-- While a core is Running its fault status is 0 (R32). -/
theorem faultStatusOk_of_running {opc : OpcodeMap} {s : State} (h : s.run = .running) :
    faultStatusOk opc s = true ↔ s.fcause = 0 ∧ s.finfo = 0 := by
  simp [faultStatusOk, h]

theorem faultStatusOk_of_halted {opc : OpcodeMap} {s : State} (h : s.run = .halted) :
    faultStatusOk opc s = true ↔ s.fcause = 0 ∧ s.finfo = 0 := by
  simp [faultStatusOk, h]

/-- The values a fault can record (R231). -/
def CanRecord (opc : OpcodeMap) : HwFault → Prop
  | .illegalOpcode op => opc.lookup op = none
  | .illegalRegister b => legalIndex b = false
  | .divideByZero index => legalIndex index = true

/-- Fault entry leaves an honest fault status when its fault can record its value (R231, R234). -/
theorem faultStatusOk_takeFault {opc : OpcodeMap} {f : HwFault} (hf : CanRecord opc f) (a : Addr) (s : State) :
    faultStatusOk opc (takeFault f a s) = true := by
  cases f with
  | illegalOpcode op => simpa [CanRecord, faultStatusOk, HwFault.code, HwFault.info] using hf
  | illegalRegister b => simpa [CanRecord, faultStatusOk, HwFault.code, HwFault.info] using hf
  | divideByZero index => simpa [CanRecord, faultStatusOk, HwFault.code, HwFault.info] using hf

theorem legalIndex_index (r : Reg) : legalIndex r.index = true := by cases r <;> rfl

/-! ### One step -/

/-- Every instruction keeps the canonical form of memory: CALL by its two writes, the others because they
write none. -/
theorem wf_of_exec {i : Instr} {s t : State} (hs : s.mem.wf = true) (h : exec i s = .next t) :
    t.mem.wf = true := by
  by_cases hcall : ∃ target, i = .call target
  · obtain ⟨target, rfl⟩ := hcall
    rw [exec_call_eq] at h
    cases h
    rw [State.setPc_mem, State.push16_mem]
    exact Memory.wf_write _ _ (Memory.wf_write _ _ hs)
  · rwa [mem_of_exec h fun target e => hcall ⟨target, e⟩]

/-- Every instruction leaves a Running core's fault status honest: it takes a fault with a value that fault
can have, or does not touch the status. -/
theorem faultStatusOk_of_exec {opc : OpcodeMap} {i : Instr} {s t : State} (hr : s.run = .running)
    (hs : faultStatusOk opc s = true) (h : exec i s = .next t) : faultStatusOk opc t = true := by
  have hzero := (faultStatusOk_of_running hr).mp hs
  cases exec_effect h with
  | illegalRegister b _ _ illegal eq =>
    rw [eq]
    exact faultStatusOk_takeFault (f := .illegalRegister b) illegal _ _
  | divideByZero _ src _ _ eq =>
    rw [eq]
    exact faultStatusOk_takeFault (f := .divideByZero src.index) (legalIndex_index src) _ _
  | register _ _ _ _ eq => subst eq; exact (faultStatusOk_of_running hr).mpr hzero
  | flags _ _ eq => subst eq; exact (faultStatusOk_of_running hr).mpr hzero
  | jump _ _ eq => subst eq; exact (faultStatusOk_of_running hr).mpr hzero
  | call _ _ eq => subst eq; exact (faultStatusOk_of_running hr).mpr hzero
  | ret _ eq => subst eq; exact (faultStatusOk_of_running hr).mpr hzero
  | halt _ eq => subst eq; exact (faultStatusOk_of_halted rfl).mpr hzero

theorem invWith_of_step {opc : OpcodeMap} {s t : State} (hs : invWith opc s = true)
    (h : stepWith opc s = .next t) : invWith opc t = true := by
  obtain ⟨hwf, hstatus⟩ := invWith_iff.mp hs
  obtain ⟨hr, ⟨i, -, he⟩ | ⟨f, hf, rfl⟩⟩ := stepWith_next h
  · exact invWith_iff.mpr ⟨wf_of_exec hwf he, faultStatusOk_of_exec hr hstatus he⟩
  · obtain ⟨rfl, unmapped⟩ := fetchInstr_error hf
    exact invWith_iff.mpr
      ⟨hwf, faultStatusOk_takeFault (f := .illegalOpcode (s.load s.pc)) unmapped _ _⟩

/-- Settles O44. -/
theorem stepKeepsTheInvariant : Obligations.StepKeepsTheInvariant :=
  fun _ _ _ hs h => invWith_of_step hs h

/-! ### Reset and the host -/

theorem invWith_resetBy {opc : OpcodeMap} {s : State} (hs : invWith opc s = true) (v : ResetValues) :
    invWith opc (s.resetBy v) = true :=
  invWith_iff.mpr ⟨(invWith_iff.mp hs).1, (faultStatusOk_of_running rfl).mpr ⟨rfl, rfl⟩⟩

/-- Settles O45. -/
theorem resetSatisfiesTheInvariant : Obligations.ResetSatisfiesTheInvariant :=
  fun _ => invWith_iff.mpr ⟨State.reset_mem_wf, (faultStatusOk_of_running rfl).mpr ⟨rfl, rfl⟩⟩

theorem invWith_store {opc : OpcodeMap} {s : State} (hs : invWith opc s = true) (a : Addr) (v : Byte) :
    invWith opc (s.store a v) = true := by
  obtain ⟨hwf, hstatus⟩ := invWith_iff.mp hs
  exact invWith_iff.mpr ⟨Memory.wf_write a v hwf, hstatus⟩

end Sys2Proof.Safety

namespace Sys2Proof.Machine

open Safety

/-! ### The host's operations -/

@[simp] theorem hostWith_reset (opc : OpcodeMap) (v : ResetValues) (h : Session) :
    hostWith opc (.reset v) h = .ok (⟨h.core.resetBy v, false⟩, .done) := rfl

@[simp] theorem hostWith_memRead (opc : OpcodeMap) (a : Addr) (h : Session) :
    hostWith opc (.memRead a) h = .ok (h, .byte (h.core.load a)) := rfl

@[simp] theorem hostWith_status (opc : OpcodeMap) (h : Session) :
    hostWith opc .status h = .ok (h, .status h.core.run h.core.fcause h.core.finfo) := rfl

@[simp] theorem hostWith_regs (opc : OpcodeMap) (h : Session) :
    hostWith opc .regs h = .ok (h, .regs h.core.regs h.core.z h.core.c h.core.pc h.core.sp) := rfl

/-- A memory write is allowed before the first step, and stores one byte (R244, log 10). -/
theorem hostWith_memWrite (opc : OpcodeMap) (a : Addr) (v : Byte) {h : Session} (hs : h.started = false) :
    hostWith opc (.memWrite a v) h = .ok (⟨h.core.store a v, false⟩, .done) := by
  simp [hostWith, hs]

/-- What an allowed memory write is (R244). -/
theorem hostWith_memWrite_ok {opc : OpcodeMap} {a : Addr} {v : Byte} {h h' : Session} {r : HostReply}
    (ok : hostWith opc (.memWrite a v) h = .ok (h', r)) :
    h.started = false ∧ h' = ⟨h.core.store a v, false⟩ := by
  cases hs : h.started with
  | false =>
    rw [hostWith_memWrite opc a v hs] at ok
    cases ok
    exact ⟨rfl, rfl⟩
  | true => simp [hostWith, hs] at ok

/-- What an allowed step is (R244). -/
theorem hostWith_step_ok {opc : OpcodeMap} {h h' : Session} {r : HostReply}
    (ok : hostWith opc .step h = .ok (h', r)) : stepWith opc h.core = .next h'.core ∧ h'.started = true := by
  cases hstep : stepWith opc h.core with
  | next t =>
    simp only [hostWith, hstep] at ok
    cases ok
    exact ⟨rfl, rfl⟩
  | fault f => simp [hostWith, hstep] at ok
  | refused e => simp [hostWith, hstep] at ok

theorem hostWith_step_of_next {opc : OpcodeMap} {h : Session} {t : State}
    (hstep : stepWith opc h.core = .next t) : hostWith opc .step h = .ok (⟨t, true⟩, .done) := by
  simp [hostWith, hstep]

/-- Every allowed operation keeps the invariant: two change the core by hand, and one is a step. -/
theorem invWith_of_hostWith {opc : OpcodeMap} {op : HostOp} {h h' : Session} {r : HostReply}
    (hi : invWith opc h.core = true) (ok : hostWith opc op h = .ok (h', r)) : invWith opc h'.core = true := by
  cases op with
  | reset v => cases ok; exact invWith_resetBy hi v
  | memWrite a v =>
    obtain ⟨-, rfl⟩ := hostWith_memWrite_ok ok
    exact invWith_store hi a v
  | memRead a => cases ok; exact hi
  | step => exact invWith_of_step hi (hostWith_step_ok ok).1
  | status => cases ok; exact hi
  | regs => cases ok; exact hi

/-- Settles O46, by induction on the list of operations. -/
theorem hostOperationsKeepTheInvariant : Obligations.HostOperationsKeepTheInvariant := by
  unfold Obligations.HostOperationsKeepTheInvariant
  intro opc ops
  induction ops with
  | nil =>
    intro h h' hi ok
    cases ok
    exact hi
  | cons op rest ih =>
    intro h h' hi ok
    cases hop : hostWith opc op h with
    | error e => simp [hostAllWith, hop] at ok
    | ok answer =>
      simp only [hostAllWith, hop] at ok
      exact ih answer.1 h' (invWith_of_hostWith hi hop) ok

/-- Settles O48, operation by operation. -/
theorem hostPortAllowsAndEffects : Obligations.HostPortAllowsAndEffects := by
  unfold Obligations.HostPortAllowsAndEffects
  refine fun opc h => ⟨fun v => hostWith_reset opc v h, fun a v => ?writeAllowed,
    fun a v h' r ok => ?writeEffect, fun a => hostWith_memRead opc a h, ?stepAllowed,
    fun h' r ok => hostWith_step_ok ok, hostWith_status opc h, hostWith_regs opc h⟩
  case writeAllowed =>
    exact ⟨fun ⟨x, ok⟩ => (hostWith_memWrite_ok ok).1, fun hs => ⟨_, hostWith_memWrite opc a v hs⟩⟩
  case writeEffect =>
    obtain ⟨-, rfl⟩ := hostWith_memWrite_ok ok
    exact ⟨Memory.read_write_same _ a v, fun b hb => Memory.read_write_other _ v hb, rfl⟩
  case stepAllowed =>
    rw [← stepWith_next_iff (opc := opc)]
    exact ⟨fun ⟨x, ok⟩ => ⟨_, (hostWith_step_ok ok).1⟩, fun ⟨t, ht⟩ => ⟨_, hostWith_step_of_next ht⟩⟩

end Sys2Proof.Machine
end

section
/-! PROOFS. Memory as its bytes (20_memory.md §1): that the canonical form is determined by what it reads,
what a block of consecutive writes reads, and the boot order and `withFetchWord`, which are such blocks. -/

namespace Sys2Proof.Machine

/-! ### The canonical form is its bytes -/

/-- Nothing is listed below the first address of a canonical form. -/
theorem Memory.lookup_of_lt {lo a : Nat} {m : Memory} (hm : Memory.wfFrom lo m = true) (ha : a < lo) :
    m.lookup a = Config.memFill := by
  induction m generalizing lo with
  | nil => rfl
  | cons cell rest ih =>
    obtain ⟨k, v⟩ := cell
    obtain ⟨hlo, -, -, hrest⟩ := Memory.wfFrom_cons.mp hm
    rw [Memory.lookup, if_neg (by omega)]
    exact ih hrest (by omega)

theorem Memory.lookup_cons_same (k : Nat) (v : Byte) (rest : Memory) :
    Memory.lookup ((k, v) :: rest) k = v := if_pos rfl

theorem Memory.lookup_cons_other {k a : Nat} (v : Byte) (rest : Memory) (h : a ≠ k) :
    Memory.lookup ((k, v) :: rest) a = Memory.lookup rest a := if_neg h

/-- A canonical form that lists an address reads something else there than one that begins above it. -/
theorem Memory.lookup_head_ne {lo k : Nat} {v : Byte} {rest n : Memory}
    (hm : Memory.wfFrom lo ((k, v) :: rest) = true) {lo' : Nat} (hn : Memory.wfFrom lo' n = true)
    (h : k < lo') : Memory.lookup ((k, v) :: rest) k ≠ n.lookup k := by
  obtain ⟨-, -, hv, -⟩ := Memory.wfFrom_cons.mp hm
  rwa [Memory.lookup_cons_same, Memory.lookup_of_lt hn h]

/-- Canonical forms that read alike at every 16-bit address are the same list. -/
theorem Memory.eq_of_lookup_eq {lo : Nat} {m n : Memory} (hm : Memory.wfFrom lo m = true)
    (hn : Memory.wfFrom lo n = true) (h : ∀ a < 65536, m.lookup a = n.lookup a) : m = n := by
  induction m generalizing lo n with
  | nil =>
    cases n with
    | nil => rfl
    | cons cell rest =>
      obtain ⟨k, v⟩ := cell
      obtain ⟨-, hk, -, -⟩ := Memory.wfFrom_cons.mp hn
      exact absurd (h k hk).symm (Memory.lookup_head_ne hn (n := []) (lo' := k + 1) rfl (by omega))
  | cons cell rest ih =>
    obtain ⟨k, v⟩ := cell
    obtain ⟨hlo, hk, -, hrest⟩ := Memory.wfFrom_cons.mp hm
    cases n with
    | nil => exact absurd (h k hk) (Memory.lookup_head_ne hm (n := []) (lo' := k + 1) rfl (by omega))
    | cons cell' rest' =>
      obtain ⟨k', v'⟩ := cell'
      obtain ⟨hlo', hk', hv', hrest'⟩ := Memory.wfFrom_cons.mp hn
      obtain hlt | rfl | hgt := Nat.lt_trichotomy k k'
      · have above : Memory.wfFrom k' ((k', v') :: rest') = true :=
          Memory.wfFrom_cons.mpr ⟨le_rfl, hk', hv', hrest'⟩
        exact absurd (h k hk) (Memory.lookup_head_ne hm above hlt)
      · have hv : v = v' := by
          simpa only [Memory.lookup_cons_same] using h k hk
        have tails : rest = rest' := by
          refine ih hrest hrest' fun a ha => ?_
          by_cases hak : a = k
          · rw [Memory.lookup_of_lt hrest (by omega), Memory.lookup_of_lt hrest' (by omega)]
          · simpa only [Memory.lookup_cons_other _ _ hak] using h a ha
        rw [hv, tails]
      · have above : Memory.wfFrom k ((k, v) :: rest) = true := by
          obtain ⟨-, -, hv, -⟩ := Memory.wfFrom_cons.mp hm
          exact Memory.wfFrom_cons.mpr ⟨le_rfl, hk, hv, hrest⟩
        exact absurd (h k' hk').symm (Memory.lookup_head_ne hn above hgt)

/-- Settles O11: a 16-bit address is a number below 65536. -/
theorem memoriesThatReadAlikeAreEqual : Obligations.MemoriesThatReadAlikeAreEqual := by
  unfold Obligations.MemoriesThatReadAlikeAreEqual
  intro m n hm hn h
  refine Memory.eq_of_lookup_eq hm hn fun a ha => ?_
  have read := h (BitVec.ofNat 16 a)
  rwa [Memory.read, Memory.read, BitVec.toNat_ofNat, Nat.mod_eq_of_lt ha] at read

/-! ### Consecutive bytes -/

theorem addr_add_ofNat_succ (a : Addr) (k : Nat) :
    a + BitVec.ofNat 16 (k + 1) = a + 1 + BitVec.ofNat 16 k := by bv_omega

/-- A block of writes leaves every address outside it alone (R53, R58). -/
theorem Memory.read_writeBytes_other (bytes : List Byte) (m : Memory) (a : Addr) {b : Addr}
    (h : ∀ k < bytes.length, b ≠ a + BitVec.ofNat 16 k) : (m.writeBytes a bytes).read b = m.read b := by
  induction bytes generalizing m a with
  | nil => rfl
  | cons v rest ih =>
    have hhead : b ≠ a := by simpa using h 0 (by simp)
    rw [Memory.writeBytes, ih, Memory.read_write_other _ _ hhead]
    intro k hk
    have htail := h (k + 1) (by simpa using hk)
    rwa [addr_add_ofNat_succ] at htail

/-- A block of at most 65536 writes does not meet itself: each address reads its own byte (R53). -/
theorem Memory.read_writeBytes (bytes : List Byte) (m : Memory) (a : Addr) (hlen : bytes.length ≤ 65536)
    (k : Nat) (hk : k < bytes.length) :
    (m.writeBytes a bytes).read (a + BitVec.ofNat 16 k) = bytes[k] := by
  induction bytes generalizing m a k with
  | nil => cases hk
  | cons v rest ih =>
    have hrest : rest.length + 1 ≤ 65536 := hlen
    rw [Memory.writeBytes]
    cases k with
    | zero =>
      rw [Memory.read_writeBytes_other]
      · simp
      · intro j hj
        bv_omega
    | succ k =>
      rw [addr_add_ofNat_succ, ih _ _ (by omega) k (by simpa using hk), List.getElem_cons_succ]

/-! ### The image -/

/-- Loading an image is one block of writes (R244, R263). -/
theorem hostAllWith_loadOps (opc : OpcodeMap) (image : List Byte) (rest : List HostOp) (a : Addr)
    {h : Session} (hs : h.started = false) :
    hostAllWith opc (loadOps a image ++ rest) h =
      hostAllWith opc rest ⟨{ h.core with mem := h.core.mem.writeBytes a image }, false⟩ := by
  induction image generalizing a h with
  | nil =>
    obtain ⟨core, started⟩ := h
    cases hs
    rfl
  | cons v image ih =>
    rw [loadOps, List.cons_append, hostAllWith, hostWith_memWrite opc a v hs]
    exact ih (a + 1) rfl

/-- Settles O49: the load is one block of writes at address 0, and the reset after it keeps memory. -/
theorem bootPlacesTheImage : Obligations.BootPlacesTheImage := by
  unfold Obligations.BootPlacesTheImage
  intro opc image v h hlen hs
  refine ⟨_, hostAllWith_loadOps opc image [.reset v] 0 hs, rfl, rfl, rfl, rfl, fun k hk => ?inside,
    fun a ha => ?outside⟩
  case inside =>
    have read := Memory.read_writeBytes image h.core.mem 0 hlen k hk
    rwa [zero_add] at read
  case outside =>
    refine Memory.read_writeBytes_other image h.core.mem 0 fun k hk => ?_
    bv_omega

/-! ### A placed word -/

/-- The three bytes of a placed word stand at the PC and the two addresses after it. -/
theorem placeWord_loads (s : State) (nbits w : Nat) :
    let t := s.withFetchWord nbits w
    [t.load t.pc, t.load (t.pc + 1), t.load (t.pc + 2)] = tableBytes nbits w := by
  have read := Memory.read_writeBytes (tableBytes nbits w) s.mem s.pc (by decide : 3 ≤ 65536)
  have byte0 := read 0 (by decide : 0 < 3)
  have byte1 := read 1 (by decide : 1 < 3)
  have byte2 := read 2 (by decide : 2 < 3)
  rw [BitVec.add_zero] at byte0
  exact congrArg₂ List.cons byte0 (congrArg₂ List.cons byte1 (congrArg₂ List.cons byte2 rfl))

/-- Settles O8: the fetch of the placed state reads the word's bytes. -/
theorem placedWordRunsNext : Obligations.PlacedWordRunsNext := by
  unfold Obligations.PlacedWordRunsNext
  intro s nbits w i hword
  refine ⟨?_, rfl⟩
  cases hd : decode (tableBytes nbits w) with
  | error e => simp [decodeTableWord, hd] at hword
  | ok answer =>
    obtain ⟨j, rest⟩ := answer
    obtain rfl : j = i := by simpa [decodeTableWord, hd] using hword
    rw [← placeWord_loads s nbits w] at hd
    exact stepRunsTheDecodedInstruction.2 _ _ rest rfl hd

end Sys2Proof.Machine
end

section
/-! PROOFS. What the spec's model step can see (00_scope.md §5, 60_exceptions.md §1): two states that agree
on what has been written since reset stay so, whatever runs; and how that step stands to the machine's. -/

namespace Sys2Proof.Safety

open Sys2Proof.Machine

/-! ### Marks -/

/-- Marking one location leaves the marks of the other five: the table of `add` against `has`. -/
theorem Marks.has_add (m : Marks) (l l' : Loc) : (m.add l).has l' = true ↔ l' = l ∨ m.has l' = true := by
  rcases l with (_ | _ | _ | _) | _ | _ <;> rcases l' with (_ | _ | _ | _) | _ | _ <;>
    simp [Marks.add, Marks.has]

/-! ### Two states alike in what has been written -/

/-- An update that writes the location `l`, with the same value in both states, and no other location. -/
theorem SameWritten.write {m : Marks} {s s' t t' : State} {l : Loc} (h : SameWritten m s s')
    (hpc : t.pc = t'.pc) (hsp : t.sp = t'.sp) (hrun : t.run = t'.run) (hcause : t.fcause = t'.fcause)
    (hinfo : t.finfo = t'.finfo) (hmem : t.mem = t'.mem) (hl : valueAt t l = valueAt t' l)
    (other : ∀ l', l' ≠ l → valueAt t l' = valueAt s l' ∧ valueAt t' l' = valueAt s' l') :
    SameWritten (m.add l) t t' := by
  refine ⟨hpc, hsp, hrun, hcause, hinfo, hmem, fun l' hl' => ?_⟩
  obtain ⟨-, -, -, -, -, -, hval⟩ := h
  by_cases he : l' = l
  · rw [he, hl]
  · obtain ⟨e, e'⟩ := other l' he
    rw [e, e', hval l' (((m.has_add l l').mp hl').resolve_left he)]

theorem SameWritten.setReg {m : Marks} {s s' : State} (h : SameWritten m s s') (r : Reg) (v : Byte) :
    SameWritten (m.add (.reg r)) (s.setReg r v) (s'.setReg r v) := by
  obtain ⟨hpc, hsp, hrun, hcause, hinfo, hmem, -⟩ := id h
  refine h.write hpc hsp hrun hcause hinfo hmem ?_ fun l' hl' => ?_
  · simp only [valueAt, State.reg_setReg_same]
  · cases l' with
    | reg r' =>
      have hr : r' ≠ r := fun e => hl' (congrArg Loc.reg e)
      exact ⟨s.reg_setReg_other v hr, s'.reg_setReg_other v hr⟩
    | z => exact ⟨rfl, rfl⟩
    | c => exact ⟨rfl, rfl⟩

theorem SameWritten.setZ {m : Marks} {s s' : State} (h : SameWritten m s s') (b : Bool) :
    SameWritten (m.add .z) (s.setZ b) (s'.setZ b) := by
  obtain ⟨hpc, hsp, hrun, hcause, hinfo, hmem, -⟩ := id h
  refine h.write hpc hsp hrun hcause hinfo hmem rfl fun l' hl' => ?_
  cases l' with
  | reg r => exact ⟨rfl, rfl⟩
  | z => exact absurd rfl hl'
  | c => exact ⟨rfl, rfl⟩

theorem SameWritten.setC {m : Marks} {s s' : State} (h : SameWritten m s s') (b : Bool) :
    SameWritten (m.add .c) (s.setC b) (s'.setC b) := by
  obtain ⟨hpc, hsp, hrun, hcause, hinfo, hmem, -⟩ := id h
  refine h.write hpc hsp hrun hcause hinfo hmem rfl fun l' hl' => ?_
  cases l' with
  | reg r => exact ⟨rfl, rfl⟩
  | z => exact ⟨rfl, rfl⟩
  | c => exact absurd rfl hl'

theorem SameWritten.setPc {m : Marks} {s s' : State} (h : SameWritten m s s') (a : Addr) :
    SameWritten m (s.setPc a) (s'.setPc a) := by
  obtain ⟨-, hsp, hrun, hcause, hinfo, hmem, hval⟩ := h
  exact ⟨rfl, hsp, hrun, hcause, hinfo, hmem, fun l => by cases l <;> exact hval _⟩

theorem SameWritten.setSp {m : Marks} {s s' : State} (h : SameWritten m s s') (a : Addr) :
    SameWritten m (s.setSp a) (s'.setSp a) := by
  obtain ⟨hpc, -, hrun, hcause, hinfo, hmem, hval⟩ := h
  exact ⟨hpc, rfl, hrun, hcause, hinfo, hmem, fun l => by cases l <;> exact hval _⟩

theorem SameWritten.setRun {m : Marks} {s s' : State} (h : SameWritten m s s') (r : RunState) :
    SameWritten m (s.setRun r) (s'.setRun r) := by
  obtain ⟨hpc, hsp, -, hcause, hinfo, hmem, hval⟩ := h
  exact ⟨hpc, hsp, rfl, hcause, hinfo, hmem, fun l => by cases l <;> exact hval _⟩

theorem SameWritten.setFault {m : Marks} {s s' : State} (h : SameWritten m s s') (cause info : Byte) :
    SameWritten m (s.setFault cause info) (s'.setFault cause info) := by
  obtain ⟨hpc, hsp, hrun, -, -, hmem, hval⟩ := h
  exact ⟨hpc, hsp, hrun, rfl, rfl, hmem, fun l => by cases l <;> exact hval _⟩

theorem SameWritten.store {m : Marks} {s s' : State} (h : SameWritten m s s') (a : Addr) (v : Byte) :
    SameWritten m (s.store a v) (s'.store a v) := by
  obtain ⟨hpc, hsp, hrun, hcause, hinfo, hmem, hval⟩ := h
  exact ⟨hpc, hsp, hrun, hcause, hinfo, congrArg (Memory.write · a v) hmem,
    fun l => by cases l <;> exact hval _⟩

section

variable {m : Marks} {s s' : State}

theorem SameWritten.pc_eq (h : SameWritten m s s') : s.pc = s'.pc := by
  obtain ⟨hpc, -⟩ := h
  exact hpc

theorem SameWritten.sp_eq (h : SameWritten m s s') : s.sp = s'.sp := by
  obtain ⟨-, hsp, -⟩ := h
  exact hsp

theorem SameWritten.run_eq (h : SameWritten m s s') : s.run = s'.run := by
  obtain ⟨-, -, hrun, -⟩ := h
  exact hrun

theorem SameWritten.load_eq (h : SameWritten m s s') (a : Addr) : s.load a = s'.load a := by
  obtain ⟨-, -, -, -, -, hmem, -⟩ := h
  rw [State.load_eq, hmem, ← State.load_eq]

theorem SameWritten.reg_eq (h : SameWritten m s s') {r : Reg} (hr : m.has (.reg r) = true) :
    s.reg r = s'.reg r := by
  obtain ⟨-, -, -, -, -, -, hval⟩ := h
  exact hval (.reg r) hr

theorem SameWritten.z_eq (h : SameWritten m s s') (hz : m.has .z = true) : s.z = s'.z := by
  obtain ⟨-, -, -, -, -, -, hval⟩ := h
  have value := hval .z hz
  cases hs : s.z <;> cases hs' : s'.z <;> simp_all [valueAt]

theorem SameWritten.advance (h : SameWritten m s s') (n : Nat) :
    SameWritten m (s.advance n) (s'.advance n) := by
  rw [State.advance, State.advance, h.pc_eq]
  exact h.setPc _

theorem SameWritten.writeMoved (h : SameWritten m s s') (r : Reg) (v : Byte) :
    SameWritten (m.addAll [.reg r, .z]) (s.writeMoved r v) (s'.writeMoved r v) :=
  (h.setReg r v).setZ _

theorem SameWritten.setZC (h : SameWritten m s s') (z c : Bool) :
    SameWritten (m.addAll [.z, .c]) (s.setZC z c) (s'.setZC z c) :=
  (h.setZ z).setC c

theorem SameWritten.writeAlu (h : SameWritten m s s') (r : Reg) (o : AluOut) :
    SameWritten (m.addAll [.reg r, .z, .c]) (s.writeAlu r o) (s'.writeAlu r o) :=
  ((h.setReg r o.result).setZ o.zero).setC o.carry

theorem SameWritten.takeFault (h : SameWritten m s s') (f : HwFault) (a : Addr) :
    SameWritten m (takeFault f a s) (takeFault f a s') :=
  ((h.setRun .faulted).setFault f.code f.info).setPc a

theorem SameWritten.push16 (h : SameWritten m s s') (v : Addr) :
    SameWritten m (s.push16 v) (s'.push16 v) := by
  unfold State.push16
  simp only [State.setSp_sp, State.store_sp, h.sp_eq]
  exact (((h.setSp _).store _ _).setSp _).store _ _

/-- The fetch reads memory at the PC alone. -/
theorem SameWritten.fetchInstr_eq (h : SameWritten m s s') (opc : OpcodeMap) :
    fetchInstr opc s = fetchInstr opc s' := by
  obtain ⟨hl, e⟩ | ⟨n, hl, e⟩ := fetchInstr_cases opc s
  · rw [h.load_eq, h.pc_eq] at hl
    rw [e, fetchInstr_of_unmapped ((opc.lookup_none_iff _).mp hl), h.load_eq, h.pc_eq]
  · rw [h.load_eq, h.pc_eq] at hl
    rw [e, fetchInstr_of_code ((opc.lookup_some_iff _ _).mp hl), h.load_eq, h.load_eq, h.pc_eq]

end

/-! ### Two results alike in what has been written -/

/-- Results of the spec's model step that cannot be told apart. -/
inductive SameResult : SpecOutcome → SpecOutcome → Prop where
  | next {m : Marks} {t t' : State} (h : SameWritten m t t') : SameResult (.next (t, m)) (.next (t', m))
  | execution {f : HwFault} {m : Marks} {t t' : State} (h : SameWritten m t t') :
      SameResult (.fault (.execution f t m)) (.fault (.execution f t' m))
  | uninitRead (l : Loc) : SameResult (.fault (.uninitRead l)) (.fault (.uninitRead l))
  | noStep (f f' : Fault) : SameResult (.fault (.noStep f)) (.fault (.noStep f'))

/-- What an instruction that reads only what has been written does in two states alike: it takes the same
fault in both, or leaves states alike in what it wrote too, Faulted only if they were before. -/
def SameExec (m : Marks) (i : Instr) (s s' : State) : Prop :=
  ∃ t t', exec i s = .next t ∧ exec i s' = .next t' ∧
    ((∃ f, t = takeFault f s.pc s ∧ t' = takeFault f s'.pc s') ∨
      (SameWritten (m.after i) t t' ∧ (t.run = .faulted → s.run = .faulted)))

section

variable {m : Marks} {i : Instr} {s s' t t' : State}

theorem SameExec.of_fault {f : HwFault} (e : exec i s = .next (takeFault f s.pc s))
    (e' : exec i s' = .next (takeFault f s'.pc s')) : SameExec m i s s' :=
  ⟨_, _, e, e', .inl ⟨f, rfl, rfl⟩⟩

theorem SameExec.of_next (e : exec i s = .next t) (e' : exec i s' = .next t')
    (ht : t.run = .faulted → s.run = .faulted) (h : SameWritten (m.after i) t t') : SameExec m i s s' :=
  ⟨t, t', e, e', .inr ⟨h, ht⟩⟩

/-- The results a Running core's instruction has in two states alike cannot be told apart. -/
theorem SameExec.sameResult (hexec : SameExec m i s s') (h : SameWritten m s s') (hr : s.run = .running)
    (e : exec i s = .next t) (e' : exec i s' = .next t') :
    SameResult (specResult m i t) (specResult m i t') := by
  obtain ⟨u, u', hu, hu', res⟩ := hexec
  cases e.symm.trans hu
  cases e'.symm.trans hu'
  obtain ⟨f, rfl, rfl⟩ | ⟨same, hfaulted⟩ := res
  · rw [specResult_takeFault, specResult_takeFault, h.pc_eq]
    exact .execution (h.takeFault f _)
  · have ht : t.run ≠ .faulted := fun ht => by simp [hfaulted ht] at hr
    rw [specResult_of_not_faulted m i ht, specResult_of_not_faulted m i (same.run_eq ▸ ht)]
    exact .next same

/-- A register pair instruction: alike when an index is illegal, so alike when its lines are. -/
theorem SameExec.of_pair {f : Byte → Byte → Instr} (hf : f ∈ registerPairForms) {b1 b2 : Byte}
    (lines : ∀ dst src, b1 = Reg.index dst → b2 = Reg.index src →
      SameExec m (f dst.index src.index) s s') : SameExec m (f b1 b2) s s' := by
  obtain ⟨dst, src, rfl, rfl, -⟩ | ⟨illegal, -⟩ | ⟨legal, illegal, -⟩ := operandsRR_cases b1 b2
  · exact lines dst src rfl rfl
  · exact .of_fault (exec_pair_illegal_first hf illegal s) (exec_pair_illegal_first hf illegal s')
  · exact .of_fault (exec_pair_illegal_second hf legal illegal s)
      (exec_pair_illegal_second hf legal illegal s')

/-- A register-immediate instruction: alike when its index is illegal, so alike when its lines are. -/
theorem SameExec.of_immediate {f : Byte → Byte → Instr} (hf : f ∈ immediateForms) {b imm : Byte}
    (lines : ∀ dst, b = Reg.index dst → SameExec m (f dst.index imm) s s') : SameExec m (f b imm) s s' := by
  obtain ⟨dst, rfl, -⟩ | ⟨illegal, -⟩ := operandsRI_cases b imm
  · exact lines dst rfl
  · exact .of_fault (exec_immediate_illegal hf illegal s) (exec_immediate_illegal hf illegal s')

end

/-! ### What is read and written, by form -/

@[simp] theorem onRR_index (dst src : Reg) (f : Reg → Reg → List Loc) :
    onRR dst.index src.index f = f dst src := by
  simp [onRR, operandsRR]

@[simp] theorem onRI_index (dst : Reg) (imm : Byte) (f : Reg → List Loc) :
    onRI dst.index imm f = f dst := by
  simp [onRI, operandsRI]

/-- The register pair instructions that read both their operands (R235). -/
abbrev readingPairForms : List (Byte → Byte → Instr) := [.addRR, .subRR, .cmpRR, .mul, .div]

/-- The register-immediate instructions that read their register (R235). -/
abbrev readingImmediateForms : List (Byte → Byte → Instr) := [.addRI, .subRI, .cmpRI]

/-- The destination is read before the source (R235). -/
theorem reads_pair {f : Byte → Byte → Instr} (hf : f ∈ readingPairForms) (dst src : Reg) :
    reads (f dst.index src.index) = [.reg dst, .reg src] := by
  simp only [List.mem_cons, List.not_mem_nil, or_false] at hf
  rcases hf with rfl | rfl | rfl | rfl | rfl <;> exact onRR_index dst src _

theorem reads_immediate {f : Byte → Byte → Instr} (hf : f ∈ readingImmediateForms) (dst : Reg)
    (imm : Byte) : reads (f dst.index imm) = [.reg dst] := by
  simp only [List.mem_cons, List.not_mem_nil, or_false] at hf
  rcases hf with rfl | rfl | rfl <;> exact onRI_index dst imm _

/-- MOV_RR does not read its destination (R235). -/
theorem reads_movRR (dst src : Reg) : reads (.movRR dst.index src.index) = [.reg src] :=
  onRR_index dst src _

section

variable {m : Marks} {s s' : State} {f : Byte → Byte → Instr}

/-- A register pair instruction that reads both operands finds the same values in both states. -/
theorem SameExec.of_reading_pair (hf : f ∈ readingPairForms) {b1 b2 : Byte} (h : SameWritten m s s')
    (hreads : ∀ l ∈ reads (f b1 b2), m.has l = true)
    (lines : ∀ dst src, s.reg dst = s'.reg dst → s.reg src = s'.reg src →
      SameExec m (f dst.index src.index) s s') : SameExec m (f b1 b2) s s' := by
  refine .of_pair (List.mem_cons_of_mem _ hf) fun dst src e1 e2 => ?_
  subst e1 e2
  rw [reads_pair hf] at hreads
  exact lines dst src (h.reg_eq (hreads _ (by simp))) (h.reg_eq (hreads _ (by simp)))

/-- A register-immediate instruction that reads its register finds the same value in both states. -/
theorem SameExec.of_reading_immediate (hf : f ∈ readingImmediateForms) {b imm : Byte}
    (h : SameWritten m s s') (hreads : ∀ l ∈ reads (f b imm), m.has l = true)
    (lines : ∀ dst, s.reg dst = s'.reg dst → SameExec m (f dst.index imm) s s') :
    SameExec m (f b imm) s s' := by
  refine .of_immediate (List.mem_cons_of_mem _ hf) fun dst e => ?_
  subst e
  rw [reads_immediate hf] at hreads
  exact lines dst (h.reg_eq (hreads _ (by simp)))

end

/-! ### Every instruction -/

/-- An instruction that reads only what has been written cannot tell two states apart that agree on it. -/
theorem sameExec {m : Marks} {i : Instr} {s s' : State} (h : SameWritten m s s')
    (hreads : ∀ l ∈ reads i, m.has l = true) : SameExec m i s s' := by
  have moved := h.advance 3
  cases i with
  | movRR rd rs =>
    refine .of_pair (by simp) fun dst src e1 e2 => ?_
    subst e1 e2
    have hsrc := h.reg_eq (hreads (.reg src) (by simp [reads]))
    refine .of_next (exec_movRR_index dst src s) (exec_movRR_index dst src s') id ?_
    rw [Marks.after, writes, onRR_index, hsrc]
    exact moved.writeMoved dst _
  | movRI rd imm =>
    refine .of_immediate (by simp) fun dst e => ?_
    subst e
    refine .of_next (exec_movRI_index dst imm s) (exec_movRI_index dst imm s') id ?_
    rw [Marks.after, writes, onRI_index]
    exact moved.writeMoved dst _
  | addRR rd rs =>
    refine .of_reading_pair (by simp) h hreads fun dst src hdst hsrc => ?_
    refine .of_next (exec_addRR_index dst src s) (exec_addRR_index dst src s') id ?_
    rw [Marks.after, writes, onRR_index, hdst, hsrc]
    exact moved.writeAlu dst _
  | addRI rd imm =>
    refine .of_reading_immediate (by simp) h hreads fun dst hdst => ?_
    refine .of_next (exec_addRI_index dst imm s) (exec_addRI_index dst imm s') id ?_
    rw [Marks.after, writes, onRI_index, hdst]
    exact moved.writeAlu dst _
  | subRR rd rs =>
    refine .of_reading_pair (by simp) h hreads fun dst src hdst hsrc => ?_
    refine .of_next (exec_subRR_index dst src s) (exec_subRR_index dst src s') id ?_
    rw [Marks.after, writes, onRR_index, hdst, hsrc]
    exact moved.writeAlu dst _
  | subRI rd imm =>
    refine .of_reading_immediate (by simp) h hreads fun dst hdst => ?_
    refine .of_next (exec_subRI_index dst imm s) (exec_subRI_index dst imm s') id ?_
    rw [Marks.after, writes, onRI_index, hdst]
    exact moved.writeAlu dst _
  | cmpRR rd rs =>
    refine .of_reading_pair (by simp) h hreads fun dst src hdst hsrc => ?_
    refine .of_next (exec_cmpRR_index dst src s) (exec_cmpRR_index dst src s') id ?_
    rw [Marks.after, writes, onRR_index, hdst, hsrc]
    exact moved.setZC _ _
  | cmpRI rd imm =>
    refine .of_reading_immediate (by simp) h hreads fun dst hdst => ?_
    refine .of_next (exec_cmpRI_index dst imm s) (exec_cmpRI_index dst imm s') id ?_
    rw [Marks.after, writes, onRI_index, hdst]
    exact moved.setZC _ _
  | mul rd rs =>
    refine .of_reading_pair (by simp) h hreads fun dst src hdst hsrc => ?_
    refine .of_next (exec_mul_index dst src s) (exec_mul_index dst src s') id ?_
    rw [Marks.after, writes, onRR_index, hdst, hsrc]
    exact moved.writeAlu dst _
  | div rd rs =>
    refine .of_reading_pair (by simp) h hreads fun dst src hdst hsrc => ?_
    by_cases hzero : s.reg src = 0
    · exact .of_fault (exec_div_index_zero dst hzero) (exec_div_index_zero dst (hsrc ▸ hzero))
    · obtain ⟨q, hq, e⟩ := exec_div_index dst hzero
      obtain ⟨q', hq', e'⟩ := exec_div_index dst (s := s') (hsrc ▸ hzero)
      obtain rfl : q = q' := by
        rw [hdst, hsrc, hq'] at hq
        exact (Option.some.inj hq).symm
      refine .of_next e e' id ?_
      rw [Marks.after, writes, onRR_index]
      exact moved.writeMoved dst q
  | jmp target => exact .of_next (exec_jmp_eq target s) (exec_jmp_eq target s') id (h.setPc target)
  | jz target =>
    have hz := h.z_eq (hreads .z (by simp [reads]))
    refine .of_next (exec_jz_eq target s) ?_ id (h.setPc (if s.z = true then target else s.pc + 3))
    rw [hz, h.pc_eq]
    exact exec_jz_eq target s'
  | jnz target =>
    have hz := h.z_eq (hreads .z (by simp [reads]))
    refine .of_next (exec_jnz_eq target s) ?_ id (h.setPc (if s.z = true then s.pc + 3 else target))
    rw [hz, h.pc_eq]
    exact exec_jnz_eq target s'
  | call target =>
    refine .of_next (exec_call_eq target s) (exec_call_eq target s') id ?_
    rw [h.pc_eq]
    exact (h.push16 _).setPc target
  | ret =>
    refine .of_next (exec_ret_eq s) (exec_ret_eq s') id ?_
    rw [h.load_eq, h.load_eq, h.sp_eq]
    exact (h.setPc _).setSp _
  | hlt =>
    refine .of_next (exec_hlt_eq s) (exec_hlt_eq s') nofun ?_
    rw [h.pc_eq]
    exact (h.setPc _).setRun _

/-! ### Runs -/

/-- One step of the spec's model cannot tell apart what has not been written. -/
theorem sameResult_step (opc : OpcodeMap) {m : Marks} {s s' : State} (h : SameWritten m s s') :
    SameResult (specStepWith opc s m) (specStepWith opc s' m) := by
  obtain ⟨hr, f, -, e⟩ | ⟨hr, f, hf, -, e⟩ | ⟨hr, i, t, hf, he, -, res⟩ := specStepWith_cases opc s m
  · obtain ⟨-, f', -, e'⟩ | ⟨hr', -⟩ | ⟨hr', -⟩ := specStepWith_cases opc s' m
    · rw [e, e']
      exact .noStep f f'
    · exact absurd (h.run_eq.trans hr') hr
    · exact absurd (h.run_eq.trans hr') hr
  · have hr' : s'.run = .running := h.run_eq ▸ hr
    have hf' : fetchInstr opc s' = .error f := h.fetchInstr_eq opc ▸ hf
    rw [e, specStepWith, hr', hf', h.pc_eq]
    exact .execution (h.takeFault f _)
  · have hr' : s'.run = .running := h.run_eq ▸ hr
    have hf' : fetchInstr opc s' = .ok i := h.fetchInstr_eq opc ▸ hf
    obtain ⟨l, hu, e⟩ | ⟨hu, e⟩ := res
    · have e' : specStepWith opc s' m = .fault (.uninitRead l) := by simp [specStepWith, hr', hf', hu]
      rw [e, e']
      exact .uninitRead l
    · obtain ⟨t', he'⟩ := exec_next i s'
      have e' : specStepWith opc s' m = specResult m i t' := by simp [specStepWith, hr', hf', hu, he']
      rw [e, e']
      exact (sameExec h ((uninitRead_eq_none m i).mp hu)).sameResult h hr he he'

/-- Nor can a run of any length. -/
theorem sameResult_run (opc : OpcodeMap) (n : Nat) {m : Marks} {s s' : State} (h : SameWritten m s s') :
    SameResult (specRunWith opc n s m) (specRunWith opc n s' m) := by
  induction n generalizing m s s' with
  | zero => exact .next h
  | succ n ih =>
    have step := sameResult_step opc h
    simp only [specRunWith]
    generalize specStepWith opc s m = r at step ⊢
    generalize specStepWith opc s' m = r' at step ⊢
    cases step with
    | next h' => exact ih h'
    | execution h' => exact .execution h'
    | uninitRead l => exact .uninitRead l
    | noStep f f' => exact .noStep f f'

/-- Settles O54: the results of the two runs are alike, and each clause reads off one kind of result. -/
theorem resetValuesAreUnobservable : Obligations.ResetValuesAreUnobservable := by
  unfold Obligations.ResetValuesAreUnobservable
  intro opc n m s s' h
  have same := sameResult_run opc n h
  generalize specRunWith opc n s m = r at same
  generalize specRunWith opc n s' m = r' at same
  refine ⟨fun t m' e => ?next, fun f t m' e => ?execution, fun l e => ?uninitRead⟩
  case next =>
    subst e
    cases same with
    | next ht => exact ⟨_, rfl, ht⟩
  case execution =>
    subst e
    cases same with
    | execution ht => exact ⟨_, rfl, ht⟩
  case uninitRead =>
    subst e
    cases same with
    | uninitRead => rfl

/-! ### The carry flag -/

theorem mem_onRR {l : Loc} {b1 b2 : Byte} {f : Reg → Reg → List Loc} (h : l ∈ onRR b1 b2 f) :
    ∃ dst src, l ∈ f dst src := by
  obtain ⟨dst, src, rfl, rfl, -⟩ | ⟨-, e⟩ | ⟨-, -, e⟩ := operandsRR_cases b1 b2
  · exact ⟨dst, src, by simpa using h⟩
  · simp [onRR, e] at h
  · simp [onRR, e] at h

theorem mem_onRI {l : Loc} {b1 b2 : Byte} {f : Reg → List Loc} (h : l ∈ onRI b1 b2 f) :
    ∃ dst, l ∈ f dst := by
  obtain ⟨dst, rfl, -⟩ | ⟨-, e⟩ := operandsRI_cases b1 b2
  · exact ⟨dst, by simpa using h⟩
  · simp [onRI, e] at h

/-- No instruction reads `C` (R29). -/
theorem c_notMem_reads (i : Instr) : Loc.c ∉ reads i := by
  intro h
  cases i with
  | movRR | addRR | subRR | cmpRR | mul | div =>
    obtain ⟨dst, src, hl⟩ := mem_onRR h
    simp at hl
  | addRI | subRI | cmpRI =>
    obtain ⟨dst, hl⟩ := mem_onRI h
    simp at hl
  | _ => simp [reads] at h

/-- Everything but the carry counts as written. -/
def Marks.allButCarry : Marks := ⟨true, true, true, true, true, false⟩

theorem Marks.allButCarry_has {l : Loc} (h : l ≠ .c) : Marks.allButCarry.has l = true := by
  cases l with
  | reg r => cases r <;> rfl
  | z => rfl
  | c => exact absurd rfl h

theorem Marks.has_addAll_of_has {m : Marks} {l : Loc} (h : m.has l = true) (ls : List Loc) :
    (m.addAll ls).has l = true := by
  induction ls generalizing m with
  | nil => exact h
  | cons l' rest ih => exact ih ((m.has_add l' l).mpr (.inr h))

/-- States alike in everything but the carry differ in the carry alone. -/
theorem eq_setC_of_sameWritten {m : Marks} {t t' : State} (hm : ∀ l, l ≠ .c → m.has l = true)
    (h : SameWritten m t t') : t' = { t with c := t'.c } := by
  obtain ⟨hpc, hsp, hrun, hcause, hinfo, hmem, -⟩ := id h
  have hregs : t.regs = t'.regs := RegFile.ext_get fun r => h.reg_eq (hm (.reg r) (by simp))
  have hz : t.z = t'.z := h.z_eq (hm .z (by simp))
  exact State.ext_fields hregs.symm hpc.symm hsp.symm hz.symm rfl hrun.symm hcause.symm hinfo.symm
    hmem.symm

/-- The carry of one of two equal states may be any value. -/
theorem sameWritten_setC (s : State) (b : Bool) : SameWritten .allButCarry s { s with c := b } := by
  refine ⟨rfl, rfl, rfl, rfl, rfl, rfl, fun l hl => ?_⟩
  cases l with
  | reg r => rfl
  | z => rfl
  | c => cases hl

/-- An instruction runs alike with another carry, up to the carry. -/
theorem exec_setC {i : Instr} {s t : State} (b : Bool) (h : exec i s = .next t) :
    ∃ b', exec i { s with c := b } = .next { t with c := b' } := by
  have hreads : ∀ l ∈ reads i, Marks.allButCarry.has l = true := fun l hl =>
    Marks.allButCarry_has fun e => c_notMem_reads i (e ▸ hl)
  obtain ⟨u, t', hu, e', ⟨f, rfl, rfl⟩ | ⟨same', -⟩⟩ := sameExec (sameWritten_setC s b) hreads
  · cases h.symm.trans hu
    exact ⟨b, e'⟩
  · cases h.symm.trans hu
    refine ⟨t'.c, e'.trans (congrArg _ (eq_setC_of_sameWritten (fun l hl => ?_) same'))⟩
    exact Marks.has_addAll_of_has (Marks.allButCarry_has hl) (writes i)

/-- Settles O40: no instruction reads `C`, so states alike in all else run alike. -/
theorem carryIsNeverRead : Obligations.CarryIsNeverRead := fun _ _ _ b h => exec_setC b h

/-! ### A branch after a compare -/

/-- Where JZ and JNZ go when `Z` tells whether `P` holds (R194, R195). -/
theorem exec_branch_pc {t : State} {P : Prop} [Decidable P] (hz : t.z = true ↔ P) (target : Addr) :
    (∃ u, exec (.jz target) t = .next u ∧ u.pc = if P then target else t.pc + 3) ∧
      (∃ u, exec (.jnz target) t = .next u ∧ u.pc = if P then t.pc + 3 else target) := by
  simp only [← hz]
  exact ⟨⟨_, exec_jz_eq target t, rfl⟩, ⟨_, exec_jnz_eq target t, rfl⟩⟩

/-- A branch after a compare of `a` with `b` tests whether they are equal (R160). -/
theorem exec_branch_after_compare (a b : Byte) (target : Addr) (s : State) :
    let t := (s.advance 3).setZC (aluSub a b).zero (aluSub a b).carry
    (∃ u, exec (.jz target) t = .next u ∧ u.pc = if a = b then target else s.pc + 6) ∧
      (∃ u, exec (.jnz target) t = .next u ∧ u.pc = if a = b then s.pc + 6 else target) ∧
      (t.c = true ↔ a.toNat < b.toNat) := by
  obtain ⟨hz, hc, hpc, -⟩ := setZC_aluSub_shows a b s
  have past : s.pc + 3 + 3 = s.pc + 6 := by bv_omega
  obtain ⟨jz, jnz⟩ := exec_branch_pc hz target
  rw [hpc, past] at jz jnz
  exact ⟨jz, jnz, hc⟩

/-- Settles O23, from the flags of a compare and what JZ and JNZ test. -/
theorem branchAfterCompareTestsEquality : Obligations.BranchAfterCompareTestsEquality := by
  unfold Obligations.BranchAfterCompareTestsEquality
  refine ⟨fun dst src target s => ?registers, fun dst imm target s => ?immediate, fun i s b t h => ?carry⟩
  case registers =>
    exact ⟨_, exec_cmpRR_index dst src s, exec_branch_after_compare (s.reg dst) (s.reg src) target s⟩
  case immediate =>
    exact ⟨_, exec_cmpRI_index dst imm s, exec_branch_after_compare (s.reg dst) imm target s⟩
  case carry =>
    obtain ⟨b', e⟩ := exec_setC b h
    exact ⟨_, e, rfl⟩

/-! ### The spec's model step and the machine's -/

/-- The result of a Running core's instruction: a fault that carries its cause when it enters Faulted, else
the next state with what the instruction wrote marked (R129). -/
theorem specResult_of_exec {i : Instr} {s t : State} (m : Marks) (hr : s.run = .running)
    (h : exec i s = .next t) :
    (t.run = .faulted ∧ ∃ f, t = takeFault f s.pc s ∧ specResult m i t = .fault (.execution f t m)) ∨
      (t.run ≠ .faulted ∧ specResult m i t = .next (t, m.after i)) := by
  by_cases ht : t.run = .faulted
  · obtain ⟨b, -, -, rfl⟩ | ⟨-, src, -, -, rfl⟩ := exec_faulted hr h ht
    · exact .inl ⟨ht, _, rfl, specResult_takeFault ..⟩
    · exact .inl ⟨ht, _, rfl, specResult_takeFault ..⟩
  · exact .inr ⟨ht, specResult_of_not_faulted m i ht⟩

section

variable {opc : OpcodeMap} {s t : State} {m m' : Marks}

/-- A next state of the spec's model step is the machine's. -/
theorem stepWith_of_specStepWith_next (h : specStepWith opc s m = .next (t, m')) :
    stepWith opc s = .next t ∧ t.run ≠ .faulted := by
  obtain ⟨-, f, -, e⟩ | ⟨-, f, -, -, e⟩ | ⟨hr, i, u, -, he, hstep, ⟨l, -, e⟩ | ⟨-, e⟩⟩ :=
    specStepWith_cases opc s m
  · rw [e] at h
    cases h
  · rw [e] at h
    cases h
  · rw [e] at h
    cases h
  · obtain ⟨-, f, -, res⟩ | ⟨hu, res⟩ := specResult_of_exec m hr he
    · rw [e, res] at h
      cases h
    · rw [e, res] at h
      cases h
      exact ⟨hstep, hu⟩

/-- An execution fault of the spec's model step is the machine's fault entry. -/
theorem stepWith_of_specStepWith_execution {f : HwFault}
    (h : specStepWith opc s m = .fault (.execution f t m')) :
    stepWith opc s = .next t ∧ t = takeFault f s.pc s ∧ m' = m := by
  obtain ⟨-, g, -, e⟩ | ⟨-, g, -, hstep, e⟩ | ⟨hr, i, u, -, he, hstep, ⟨l, -, e⟩ | ⟨-, e⟩⟩ :=
    specStepWith_cases opc s m
  · rw [e] at h
    cases h
  · rw [e] at h
    cases h
    exact ⟨hstep, rfl, rfl⟩
  · rw [e] at h
    cases h
  · obtain ⟨-, g, hu, res⟩ | ⟨-, res⟩ := specResult_of_exec m hr he
    · rw [e, res] at h
      cases h
      exact ⟨hstep, hu, rfl⟩
    · rw [e, res] at h
      cases h

/-- The result of a Running core's step whose instruction reads only what has been written. -/
theorem specStepWith_of_reads {i : Instr} (hr : s.run = .running) (hf : fetchInstr opc s = .ok i)
    (hreads : ∀ l ∈ reads i, m.has l = true) (he : exec i s = .next t) :
    specStepWith opc s m = specResult m i t := by
  simp [specStepWith, hr, hf, (uninitRead_eq_none m i).mpr hreads, he]

/-- The spec's model step ends in `noStep` exactly where the machine stops, and refuses nothing. -/
theorem specStepWith_noStep_iff {f : Fault} :
    specStepWith opc s m = .fault (.noStep f) ↔ stepWith opc s = .fault f := by
  obtain ⟨-, g, hstep, e⟩ | ⟨-, g, -, hstep, e⟩ | ⟨hr, i, u, -, he, hstep, ⟨l, -, e⟩ | ⟨-, e⟩⟩ :=
    specStepWith_cases opc s m
  · simp [hstep, e]
  · simp [hstep, e]
  · simp [hstep, e]
  · obtain ⟨-, g, -, res⟩ | ⟨-, res⟩ := specResult_of_exec m hr he <;> simp [hstep, e, res]

theorem specStepWith_ne_refused (r : Refusal) : specStepWith opc s m ≠ .refused r := by
  obtain ⟨-, g, -, e⟩ | ⟨-, g, -, -, e⟩ | ⟨hr, i, u, -, he, -, ⟨l, -, e⟩ | ⟨-, e⟩⟩ :=
    specStepWith_cases opc s m
  · simp [e]
  · simp [e]
  · simp [e]
  · obtain ⟨-, g, -, res⟩ | ⟨-, res⟩ := specResult_of_exec m hr he <;> simp [e, res]

end

/-- Settles O55, from what each result of the spec's model step says of the machine's. -/
theorem specStepIsTheMachinesStep : Obligations.SpecStepIsTheMachinesStep := by
  unfold Obligations.SpecStepIsTheMachinesStep
  refine ⟨fun opc s t m m' => stepWith_of_specStepWith_next,
    fun opc s t m m' f => stepWith_of_specStepWith_execution, fun opc s m f => specStepWith_noStep_iff,
    fun opc s m hr unmapped => ?illegal, fun opc s m i hr hf hreads => ?written,
    fun opc s m => specStepWith_ne_refused⟩
  case illegal =>
    simp only [specStepWith, hr, fetchInstr_of_unmapped unmapped]
    rfl
  case written =>
    obtain ⟨t, he⟩ := exec_next i s
    refine ⟨t, (stepWith_of_fetch hr hf).trans he, ?_⟩
    rw [specStepWith_of_reads hr hf hreads he]
    obtain ⟨ht, f, -, res⟩ | ⟨ht, res⟩ := specResult_of_exec m hr he
    · exact ⟨fun _ => ⟨f, res⟩, fun hne => absurd ht hne⟩
    · exact ⟨fun h => absurd h ht, fun _ => res⟩

/-! ### The order of UninitRead -/

theorem specStepWith_of_uninitRead {opc : OpcodeMap} {s : State} {m : Marks} {i : Instr} {l : Loc}
    (hr : s.run = .running) (hf : fetchInstr opc s = .ok i) (hu : uninitRead m i = some l) :
    specStepWith opc s m = .fault (.uninitRead l) := by
  simp [specStepWith, hr, hf, hu]

/-- An instruction of a register pair form reads nothing when an index is illegal (R235). -/
theorem reads_pair_illegal {f : Byte → Byte → Instr} (hf : f ∈ registerPairForms) {b1 b2 : Byte}
    (h : legalIndex b1 = false ∨ legalIndex b2 = false) : reads (f b1 b2) = [] := by
  have nothing (g : Reg → Reg → List Loc) : onRR b1 b2 g = [] := by
    obtain ⟨dst, src, rfl, rfl, -⟩ | ⟨-, e⟩ | ⟨-, -, e⟩ := operandsRR_cases b1 b2
    · simp [legalIndex_index] at h
    · simp [onRR, e]
    · simp [onRR, e]
  simp only [List.mem_cons, List.not_mem_nil, or_false] at hf
  rcases hf with rfl | rfl | rfl | rfl | rfl | rfl <;> exact nothing _

theorem reads_immediate_illegal {f : Byte → Byte → Instr} (hf : f ∈ immediateForms) {b imm : Byte}
    (h : legalIndex b = false) : reads (f b imm) = [] := by
  have nothing (g : Reg → List Loc) : onRI b imm g = [] := by
    obtain ⟨dst, rfl, -⟩ | ⟨-, e⟩ := operandsRI_cases b imm
    · simp [legalIndex_index] at h
    · simp [onRI, e]
  simp only [List.mem_cons, List.not_mem_nil, or_false] at hf
  obtain rfl | hf := hf
  · rfl
  · rcases hf with rfl | rfl | rfl <;> exact nothing _

/-- An instruction that reads nothing and takes a fault is that fault in the spec's model step. -/
theorem specStepWith_of_fault {opc : OpcodeMap} {s : State} {m : Marks} {i : Instr} {f : HwFault}
    (hr : s.run = .running) (hf : fetchInstr opc s = .ok i) (hreads : reads i = [])
    (he : exec i s = .next (takeFault f s.pc s)) :
    specStepWith opc s m = .fault (.execution f (takeFault f s.pc s) m) := by
  rw [specStepWith_of_reads hr hf (by simp [hreads]) he, specResult_takeFault]

/-- An instruction that reads only what has been written and leaves the core Running goes on. -/
theorem specStepWith_of_running {opc : OpcodeMap} {s t : State} {m : Marks} {i : Instr}
    (hr : s.run = .running) (hf : fetchInstr opc s = .ok i) (hreads : ∀ l ∈ reads i, m.has l = true)
    (he : exec i s = .next t) (ht : t.run = .running) :
    specStepWith opc s m = .next (t, m.after i) := by
  rw [specStepWith_of_reads hr hf hreads he, specResult_of_not_faulted m i (by simp [ht])]

/-- Settles O56: which operands each form reads, in order, and that none is read when an index is illegal. -/
theorem uninitReadComesInRuleOrder : Obligations.UninitReadComesInRuleOrder := by
  unfold Obligations.UninitReadComesInRuleOrder
  refine fun opc s m dst src hr => ⟨fun f hf hfetch => ⟨fun hdst => ?pairDst, fun hdst hsrc => ?pairSrc⟩,
    fun f hf imm hfetch hdst => ?immediate, fun hfetch hsrc => ?movUnread, fun hfetch hsrc => ?mov,
    fun imm hfetch => ?movImmediate, fun target hfetch hz => ?branch,
    fun f hf b1 b2 hfetch hillegal => ?pairIllegal, fun f hf b imm hfetch hillegal => ?immediateIllegal⟩
  case pairDst => exact specStepWith_of_uninitRead hr hfetch (by simp [uninitRead, reads_pair hf, hdst])
  case pairSrc =>
    exact specStepWith_of_uninitRead hr hfetch (by simp [uninitRead, reads_pair hf, hdst, hsrc])
  case immediate =>
    exact specStepWith_of_uninitRead hr hfetch (by simp [uninitRead, reads_immediate hf, hdst])
  case movUnread => exact specStepWith_of_uninitRead hr hfetch (by simp [uninitRead, reads_movRR, hsrc])
  case mov =>
    have hreads : ∀ l ∈ reads (.movRR dst.index src.index), m.has l = true := by simp [reads_movRR, hsrc]
    exact ⟨_, specStepWith_of_running hr hfetch hreads (exec_movRR_index dst src s) hr⟩
  case movImmediate =>
    exact ⟨_, specStepWith_of_running hr hfetch (by simp [reads]) (exec_movRI_index dst imm s) hr⟩
  case branch =>
    obtain hfetch | hfetch := hfetch
    · exact specStepWith_of_uninitRead hr hfetch (by simp [uninitRead, reads, hz])
    · exact specStepWith_of_uninitRead hr hfetch (by simp [uninitRead, reads, hz])
  case pairIllegal =>
    simp only [← legalIndex_eq_false_iff] at hillegal ⊢
    have hreads := reads_pair_illegal hf hillegal
    cases h1 : legalIndex b1 with
    | false => exact specStepWith_of_fault hr hfetch hreads (exec_pair_illegal_first hf h1 s)
    | true =>
      have h2 : legalIndex b2 = false := hillegal.resolve_left (by simp [h1])
      exact specStepWith_of_fault hr hfetch hreads (exec_pair_illegal_second hf h1 h2 s)
  case immediateIllegal =>
    have h := legalIndex_eq_false_iff.mpr hillegal
    exact specStepWith_of_fault hr hfetch (reads_immediate_illegal hf h) (exec_immediate_illegal hf h s)

end Sys2Proof.Safety
end

section
/-! PROOFS. The memory port over a whole step (20_memory.md §7, §8): the bus shows every write, a step sees
no byte but those it reads, and the fetch after a CALL reads what the CALL pushed. -/

namespace Sys2Proof.Machine

/-! ### Writes -/

theorem replay_append (m : Memory) (xs ys : List Access) :
    replay m (xs ++ ys) = replay (replay m xs) ys := by
  induction xs generalizing m with
  | nil => rfl
  | cons x xs ih =>
    cases x with
    | read a => exact ih m
    | write a v => exact ih (m.write a v)

/-- Accesses with no write among them leave memory alone (R62). -/
theorem replay_of_no_write {m : Memory} {xs : List Access} (h : ∀ a v, Access.write a v ∉ xs) :
    replay m xs = m := by
  induction xs with
  | nil => rfl
  | cons x xs ih =>
    cases x with
    | read a => exact ih fun b v hb => h b v (List.mem_cons_of_mem _ hb)
    | write a v => exact absurd List.mem_cons_self (h a v)

theorem replay_fetchAccesses (m : Memory) (a : Addr) (n : Nat) : replay m (fetchAccesses a n) = m :=
  replay_of_no_write (write_notMem_fetchAccesses a n)

/-- No instruction but CALL writes after its fetches (R51). -/
theorem replay_dataAccesses_of_ne_call {i : Instr} (hcall : ∀ target, i ≠ .call target) (m : Memory)
    (s : State) : replay m (dataAccesses i s) = m :=
  replay_of_no_write fun _ _ hw => by
    obtain ⟨target, e⟩ := eq_call_of_write_mem_dataAccesses hw
    exact hcall target e

/-- A fetched instruction's bus writes are those of its own accesses (R55, R67). -/
theorem replay_busWith_of_fetch {opc : OpcodeMap} {s : State} {i : Instr} (hr : s.run = .running)
    (hf : fetchInstr opc s = .ok i) (m : Memory) :
    replay m (busWith opc s) = replay m (dataAccesses i s) := by
  rw [busWith_of_fetch hr hf, replay_append, replay_fetchAccesses]

/-- The memory an instruction leaves is what its own accesses write (R62). -/
theorem mem_eq_replay_of_exec {i : Instr} {s t : State} (h : exec i s = .next t) :
    t.mem = replay s.mem (dataAccesses i s) := by
  by_cases hcall : ∃ target, i = .call target
  · obtain ⟨target, rfl⟩ := hcall
    rw [exec_call_eq] at h
    cases h
    exact s.push16_mem (s.pc + 3)
  · have hne : ∀ target, i ≠ .call target := fun target e => hcall ⟨target, e⟩
    rw [mem_of_exec h hne, replay_dataAccesses_of_ne_call hne]

/-- Settles O51: the fetches write nothing, and neither does fault entry. -/
theorem busWritesAreAllThatMemoryTakes : Obligations.BusWritesAreAllThatMemoryTakes := by
  unfold Obligations.BusWritesAreAllThatMemoryTakes
  intro opc s t h
  obtain ⟨hr, ⟨i, hf, he⟩ | ⟨f, hf, rfl⟩⟩ := stepWith_next h
  · rw [replay_busWith_of_fetch hr hf, mem_eq_replay_of_exec he]
  · rw [busWith_of_illegal hr hf]
    rfl

/-! ### Reads -/

/-- The fetch is the same in every memory that agrees on the bytes it reads (R55, R65). -/
theorem fetchInstr_of_reads {opc : OpcodeMap} {s : State} {m : Memory} (hr : s.run = .running)
    (h : ∀ a, Access.read a ∈ busWith opc s → m.read a = s.mem.read a) :
    fetchInstr opc { s with mem := m } = fetchInstr opc s := by
  obtain ⟨hl, hf⟩ | ⟨n, hl, hf⟩ := fetchInstr_cases opc s
  · rw [busWith_of_illegal hr hf] at h
    have hop : m.read s.pc = s.load s.pc := h s.pc (by simp)
    rw [hf, fetchInstr_of_unmapped, ← hop]
    · rfl
    · change ∀ k, opc.code k ≠ m.read s.pc
      rw [hop]
      exact (opc.lookup_none_iff _).mp hl
  · have code := (opc.lookup_some_iff _ _).mp hl
    have hlength : (Instr.ofOperands n (s.load (s.pc + 1)) (s.load (s.pc + 1 + 1))).length = n.length := by
      rw [Instr.length, Instr.mnemonic_ofOperands]
    rw [busWith_of_fetch hr hf, hlength] at h
    have fetched (k : Nat) (hk : k < n.length) :
        m.read (s.pc + BitVec.ofNat 16 k) = s.load (s.pc + BitVec.ofNat 16 k) := by
      refine h _ (List.mem_append_left _ ?_)
      exact List.mem_map_of_mem (List.mem_range.mpr hk)
    have hop : m.read s.pc = s.load s.pc := by
      have first := fetched 0 (Nat.lt_of_lt_of_le Nat.zero_lt_one (Nat.le_add_right 1 _))
      rwa [BitVec.add_zero] at first
    have hcode : opc.code n = State.load { s with mem := m } s.pc := code.trans hop.symm
    rw [hf, fetchInstr_of_code hcode]
    by_cases hn : n.format = .n
    · rw [Instr.ofOperands_of_n hn, Instr.ofOperands_of_n hn (s.load _)]
    · have hthree : n.length = 3 := by
        cases hform : n.format with
        | n => exact absurd hform hn
        | _ => rw [Mnemonic.length, hform]; rfl
      have b1 : m.read (s.pc + 1) = s.load (s.pc + 1) := fetched 1 (by omega)
      have b2 : m.read (s.pc + 2) = s.load (s.pc + 2) := fetched 2 (by omega)
      rw [← addr_add_one_add_one] at b2
      exact congrArg Except.ok (congrArg₂ (Instr.ofOperands n) b1 b2)

/-- An instruction runs the same whatever memory holds. -/
def IgnoresMemory (i : Instr) : Prop :=
  ∀ (s : State) (m : Memory), ∃ t, exec i s = .next t ∧ exec i { s with mem := m } = .next { t with mem := m }

theorem IgnoresMemory.of_pair {f : Byte → Byte → Instr} (hf : f ∈ registerPairForms) {b1 b2 : Byte}
    (lines : ∀ dst src : Reg, IgnoresMemory (f dst.index src.index)) : IgnoresMemory (f b1 b2) := by
  obtain ⟨dst, src, rfl, rfl, -⟩ | ⟨illegal, -⟩ | ⟨legal, illegal, -⟩ := operandsRR_cases b1 b2
  · exact lines dst src
  · exact fun s m => ⟨_, exec_pair_illegal_first hf illegal s, exec_pair_illegal_first hf illegal _⟩
  · exact fun s m => ⟨_, exec_pair_illegal_second hf legal illegal s,
      exec_pair_illegal_second hf legal illegal _⟩

theorem IgnoresMemory.of_immediate {f : Byte → Byte → Instr} (hf : f ∈ immediateForms) {b imm : Byte}
    (lines : ∀ dst : Reg, IgnoresMemory (f dst.index imm)) : IgnoresMemory (f b imm) := by
  obtain ⟨dst, rfl, -⟩ | ⟨illegal, -⟩ := operandsRI_cases b imm
  · exact lines dst
  · exact fun s m => ⟨_, exec_immediate_illegal hf illegal s, exec_immediate_illegal hf illegal _⟩

/-- DIV looks at its two registers alone (R163). -/
theorem ignoresMemory_div (dst src : Reg) : IgnoresMemory (.div dst.index src.index) := by
  intro s m
  by_cases hzero : s.reg src = 0
  · exact ⟨_, exec_div_index_zero dst hzero, exec_div_index_zero (s := { s with mem := m }) dst hzero⟩
  · obtain ⟨q, hq, e⟩ := exec_div_index dst hzero
    obtain ⟨q', hq', e'⟩ := exec_div_index (s := { s with mem := m }) dst hzero
    obtain rfl : q = q' := Option.some.inj (hq.symm.trans hq')
    exact ⟨_, e, e'⟩

/-- Only CALL and RET have to do with memory (R51). -/
theorem ignoresMemory {i : Instr} (hcall : ∀ target, i ≠ .call target) (hret : i ≠ .ret) :
    IgnoresMemory i := by
  cases i with
  | movRR rd rs =>
    exact .of_pair (by simp) fun dst src s _ => ⟨_, exec_movRR_index dst src s, exec_movRR_index dst src _⟩
  | movRI rd imm =>
    exact .of_immediate (by simp) fun dst s _ => ⟨_, exec_movRI_index dst imm s, exec_movRI_index dst imm _⟩
  | addRR rd rs =>
    exact .of_pair (by simp) fun dst src s _ => ⟨_, exec_addRR_index dst src s, exec_addRR_index dst src _⟩
  | addRI rd imm =>
    exact .of_immediate (by simp) fun dst s _ => ⟨_, exec_addRI_index dst imm s, exec_addRI_index dst imm _⟩
  | subRR rd rs =>
    exact .of_pair (by simp) fun dst src s _ => ⟨_, exec_subRR_index dst src s, exec_subRR_index dst src _⟩
  | subRI rd imm =>
    exact .of_immediate (by simp) fun dst s _ => ⟨_, exec_subRI_index dst imm s, exec_subRI_index dst imm _⟩
  | cmpRR rd rs =>
    exact .of_pair (by simp) fun dst src s _ => ⟨_, exec_cmpRR_index dst src s, exec_cmpRR_index dst src _⟩
  | cmpRI rd imm =>
    exact .of_immediate (by simp) fun dst s _ => ⟨_, exec_cmpRI_index dst imm s, exec_cmpRI_index dst imm _⟩
  | mul rd rs =>
    exact .of_pair (by simp) fun dst src s _ => ⟨_, exec_mul_index dst src s, exec_mul_index dst src _⟩
  | div rd rs => exact .of_pair (by simp) ignoresMemory_div
  | jmp target => exact fun s _ => ⟨_, exec_jmp_eq target s, exec_jmp_eq target _⟩
  | jz target => exact fun s _ => ⟨_, exec_jz_eq target s, exec_jz_eq target _⟩
  | jnz target => exact fun s _ => ⟨_, exec_jnz_eq target s, exec_jnz_eq target _⟩
  | call target => exact absurd rfl (hcall target)
  | ret => exact absurd rfl hret
  | hlt => exact fun s _ => ⟨_, exec_hlt_eq s, exec_hlt_eq _⟩

/-- In a memory that agrees on the bytes an instruction reads, it leaves the same state with that memory
changed by the same writes. -/
theorem exec_of_reads {i : Instr} {s t : State} {m : Memory}
    (h : ∀ a, Access.read a ∈ dataAccesses i s → m.read a = s.mem.read a) (he : exec i s = .next t) :
    exec i { s with mem := m } = .next { t with mem := replay m (dataAccesses i s) } := by
  by_cases hcall : ∃ target, i = .call target
  · obtain ⟨target, rfl⟩ := hcall
    rw [exec_call_eq] at he
    cases he
    rw [exec_call_eq, State.push16_eq, State.push16_eq, addr_sub_one_sub_one]
    rfl
  · have hne : ∀ target, i ≠ .call target := fun target e => hcall ⟨target, e⟩
    rw [replay_dataAccesses_of_ne_call hne]
    by_cases hret : i = .ret
    · subst hret
      have low : m.read s.sp = s.load s.sp := h s.sp (by simp [dataAccesses])
      have high : m.read (s.sp + 1) = s.load (s.sp + 1) := h (s.sp + 1) (by simp [dataAccesses])
      rw [exec_ret_eq] at he
      cases he
      rw [exec_ret_eq, ← low, ← high]
      rfl
    · obtain ⟨u, hu, e⟩ := ignoresMemory hne hret s m
      cases he.symm.trans hu
      exact e

/-- The accesses of a Running core's step are the same in every memory that agrees on what it reads. -/
theorem busWith_of_reads {opc : OpcodeMap} {s : State} {m : Memory}
    (h : ∀ a, Access.read a ∈ busWith opc s → m.read a = s.mem.read a) :
    busWith opc { s with mem := m } = busWith opc s := by
  by_cases hr : s.run = .running
  · have hsame := fetchInstr_of_reads hr h
    have hr' : State.run { s with mem := m } = .running := hr
    cases hf : fetchInstr opc s with
    | error f =>
      rw [busWith_of_illegal hr hf, busWith_of_illegal hr' (hsame.trans hf)]
    | ok i =>
      rw [busWith_of_fetch hr hf, busWith_of_fetch hr' (hsame.trans hf)]
      cases i <;> rfl
  · rw [busWith_of_not_running hr]
    exact busWith_of_not_running hr

/-- Settles O52: neither the fetch nor the instruction it gives sees another byte. -/
theorem busReadsAreAllThatAStepSees : Obligations.BusReadsAreAllThatAStepSees := by
  unfold Obligations.BusReadsAreAllThatAStepSees
  refine fun opc s m h => ⟨busWith_of_reads h, fun t ht => ?step⟩
  case step =>
    obtain ⟨hr, ⟨i, hf, he⟩ | ⟨f, hf, rfl⟩⟩ := stepWith_next ht
    · have hf' := (fetchInstr_of_reads hr h).trans hf
      rw [replay_busWith_of_fetch hr hf, stepWith_of_fetch (s := { s with mem := m }) hr hf']
      refine exec_of_reads (fun a ha => h a ?_) he
      rw [busWith_of_fetch hr hf]
      exact List.mem_append_right _ ha
    · have hf' := (fetchInstr_of_reads hr h).trans hf
      rw [busWith_of_illegal hr hf, stepWith_of_illegal (s := { s with mem := m }) hr hf']
      rfl

/-! ### Fetch after a CALL -/

/-- Settles O53: the pushed pair lies at SP - 2 and SP - 1, and the byte at SP is not touched. -/
theorem fetchSeesBytesACallWrote : Obligations.FetchSeesBytesACallWrote := by
  unfold Obligations.FetchSeesBytesACallWrote
  intro opc s target hr hf
  refine ⟨_, (stepWith_of_fetch hr hf).trans (exec_call_eq target s), rfl, fun m htarget hcode => ?_⟩
  subst htarget
  have low : (s.push16 (s.pc + 3)).load (s.sp - 2) = loByte (s.pc + 3) := s.push16_load_low _
  have high : (s.push16 (s.pc + 3)).load (s.sp - 2 + 1) = hiByte (s.pc + 3) := by
    rw [addr_sub_two_add_one, State.push16_load_high]
  have above : (s.push16 (s.pc + 3)).load (s.sp - 2 + 1 + 1) = s.load s.sp := by
    have top : s.sp - 2 + 1 + 1 = s.sp := by bv_omega
    rw [top]
    exact s.push16_read_other _ _ (by bv_omega) (by bv_omega)
  rw [← high, ← above]
  exact fetchInstr_of_code (s := (s.push16 (s.pc + 3)).setPc (s.sp - 2)) (hcode.trans low.symm)

end Sys2Proof.Machine
end

section
/-! PROOFS. The assembler (30_encoding.md §5): the two rules for the form of an operand, what every accepted
line stands for, the addresses of the two passes, and the image read back. -/

namespace Sys2Proof

/-- The bytes of an instruction are as many as its length (R80). -/
@[simp] theorem encodeWith_length (opc : OpcodeMap) (i : Instr) : (encodeWith opc i).length = i.length := by
  cases i <;> rfl

end Sys2Proof

namespace Sys2Proof.Machine

/-! ### Registers and literals -/

/-- A register name is no literal (R104). -/
theorem allDigits_of_registerOf {t : Text} {r : Byte} (h : registerOf t = some r) : allDigits t = false := by
  unfold registerOf at h
  split at h
  · subst t; rfl
  · split at h
    · subst t; rfl
    · split at h
      · subst t; rfl
      · split at h
        · subst t; rfl
        · cases h

/-- A literal is all digits (R104). -/
theorem allDigits_of_immediateOf {t : Text} {n : Byte} (h : immediateOf t = some n) : allDigits t = true := by
  unfold immediateOf at h
  split at h
  · exact (Bool.and_eq_true_iff.mp ‹_›).1
  · cases h

theorem registerOf_of_allDigits {t : Text} (h : allDigits t = true) : registerOf t = none := by
  cases hr : registerOf t with
  | none => rfl
  | some r => simp [allDigits_of_registerOf hr] at h

theorem immediateOf_of_not_allDigits {t : Text} (h : allDigits t = false) : immediateOf t = none := by
  cases hn : immediateOf t with
  | none => rfl
  | some n => simp [allDigits_of_immediateOf hn] at h

/-- On digits the two rules look at the literal alone (R106). -/
theorem formByName_eq_formByDigits {t : Text} (h : allDigits t = true) (rr ri : Byte → Byte → Instr)
    (b : Byte) : formByName rr ri b t = formByDigits rr ri b t := by
  simp [formByName, formByDigits, h, registerOf_of_allDigits h]

/-- On anything else the two rules look at the register name alone (R106). -/
theorem form_of_not_allDigits {t : Text} (h : allDigits t = false) (rr ri : Byte → Byte → Instr)
    (b : Byte) (i : Instr) :
    formByName rr ri b t = .ok i ↔ formByDigits rr ri b t = .ok i := by
  cases hr : registerOf t with
  | some r => simp [formByName, formByDigits, h, hr]
  | none => simp [formByName, formByDigits, h, hr, immediateOf_of_not_allDigits h]

/-- Settles O60: a register name is no literal, so the order in which the two are tried does not matter. -/
theorem formChoiceRulesAgree : Obligations.FormChoiceRulesAgree := by
  unfold Obligations.FormChoiceRulesAgree
  refine fun rr ri b t => ⟨fun r hr => ?register, fun n hn => ?literal, fun hr hn => ?neither,
    fun hd i h => ?digits, fun hd i h => ?notDigits, fun i => ?agree⟩
  case register => simp [formByName, hr]
  case literal => simp [formByName, registerOf_of_allDigits (allDigits_of_immediateOf hn), hn]
  case neither => exact ⟨.badImmediate, by simp [formByName, hr, hn]⟩
  case digits =>
    obtain ⟨r, hr, -⟩ | ⟨n, -, rfl⟩ := formByDigits_ok h
    · simp [registerOf_of_allDigits hd] at hr
    · exact ⟨n, rfl⟩
  case notDigits =>
    obtain ⟨r, hr, rfl⟩ | ⟨n, hn, -⟩ := formByDigits_ok h
    · exact ⟨r, hr, rfl⟩
    · simp [immediateOf_of_not_allDigits hd] at hn
  case agree =>
    cases hd : allDigits t with
    | true => rw [formByName_eq_formByDigits hd]
    | false => exact form_of_not_allDigits hd rr ri b i

/-! ### Accepted lines -/

/-- An instruction with legal indices that is as long as pass 1 counted its mnemonic (R89, R110). -/
def FitsLine (op : AsmOp) (i : Instr) : Prop := i.wellFormed = true ∧ i.length = op.size

/-- Two legal indices, as `Instr.wellFormed` asks for them. -/
theorem legalIndex_and {d s : Byte} (hd : legalIndex d = true) (hs : legalIndex s = true) :
    (legalIndex d && legalIndex s) = true := by rw [hd, hs]; rfl

/-- A two-operand line stands for one of its two forms with legal indices (R105, R106). -/
theorem fitsLine_of_twoOperands {op : AsmOp} {args : List Text}
    {form : Byte → Text → Except AsmErrorKind Instr} {i : Instr} (rr ri : Byte → Byte → Instr)
    (hform : ∀ b t, form b t = .ok i →
      (∃ src, registerOf t = some src ∧ i = rr b src) ∨ (∃ n, immediateOf t = some n ∧ i = ri b n))
    (hrr : ∀ d s, legalIndex d = true → legalIndex s = true → FitsLine op (rr d s))
    (hri : ∀ d n, legalIndex d = true → FitsLine op (ri d n))
    (h : twoOperands args form = .ok i) : FitsLine op i := by
  obtain ⟨r, t, d, -, hd, hf⟩ := twoOperands_ok h
  obtain ⟨src, hs, rfl⟩ | ⟨n, -, rfl⟩ := hform d t hf
  · exact hrr d src (registerOf_legal hd) (registerOf_legal hs)
  · exact hri d n (registerOf_legal hd)

/-- A line of `mul` or `div` stands for its register form with legal indices (R105). -/
theorem fitsLine_of_registers {op : AsmOp} {args : List Text} {i : Instr} (rr : Byte → Byte → Instr)
    (hrr : ∀ d s, legalIndex d = true → legalIndex s = true → FitsLine op (rr d s))
    (h : twoOperands args (formRegisters rr) = .ok i) : FitsLine op i := by
  obtain ⟨r, t, d, -, hd, hf⟩ := twoOperands_ok h
  obtain ⟨src, hs, rfl⟩ := formRegisters_ok hf
  exact hrr d src (registerOf_legal hd) (registerOf_legal hs)

/-- Every accepted line stands for a legal instruction of the length pass 1 counted. -/
theorem parseInstr_fitsLine {st : SymTab} {op : AsmOp} {args : List Text} {i : Instr}
    (h : parseInstr st op args = .ok i) : FitsLine op i := by
  cases op with
  | mov =>
    exact fitsLine_of_twoOperands .movRR .movRI (fun _ _ => formByName_ok)
      (fun _ _ hd hs => ⟨legalIndex_and hd hs, rfl⟩) (fun _ _ hd => ⟨hd, rfl⟩) h
  | add =>
    exact fitsLine_of_twoOperands .addRR .addRI (fun _ _ => formByName_ok)
      (fun _ _ hd hs => ⟨legalIndex_and hd hs, rfl⟩) (fun _ _ hd => ⟨hd, rfl⟩) h
  | sub =>
    exact fitsLine_of_twoOperands .subRR .subRI (fun _ _ => formByName_ok)
      (fun _ _ hd hs => ⟨legalIndex_and hd hs, rfl⟩) (fun _ _ hd => ⟨hd, rfl⟩) h
  | cmp =>
    exact fitsLine_of_twoOperands .cmpRR .cmpRI (fun _ _ => formByDigits_ok)
      (fun _ _ hd hs => ⟨legalIndex_and hd hs, rfl⟩) (fun _ _ hd => ⟨hd, rfl⟩) h
  | mul => exact fitsLine_of_registers .mul (fun _ _ hd hs => ⟨legalIndex_and hd hs, rfl⟩) h
  | div => exact fitsLine_of_registers .div (fun _ _ hd hs => ⟨legalIndex_and hd hs, rfl⟩) h
  | jmp | jz | jnz | call =>
    obtain ⟨t, a, -, -, rfl⟩ := oneLabel_ok h
    exact ⟨rfl, rfl⟩
  | ret | hlt =>
    obtain ⟨-, rfl⟩ := noOperands_ok h
    exact ⟨rfl, rfl⟩

/-! ### The two passes -/

/-- Items at consecutive addresses from `a`, the last of them ending at most at 65536 (R110). -/
def LaidOut : Nat → List Item → Prop
  | a, [] => a ≤ 65536
  | a, item :: rest => item.addr = a ∧ LaidOut (a + item.op.size) rest

/-- What a line adds to an accepted pass 1: nothing, or an item at the present address that fits (R110). -/
theorem pass1_cons_ok {n a : Nat} {st table : SymTab} {l : Text} {rest : List Text} {items : List Item}
    (h : pass1 n a st (l :: rest) = .ok (items, table)) :
    (∃ st', pass1 (n + 1) a st' rest = .ok (items, table)) ∨
      (∃ op args more, a + op.size ≤ 65536 ∧ pass1 (n + 1) (a + op.size) st rest = .ok (more, table) ∧
        items = ⟨n, a, op, args⟩ :: more) := by
  rw [pass1] at h
  split at h
  · cases h
  · exact .inl ⟨_, h⟩
  · split at h
    · cases h
    · exact .inl ⟨_, h⟩
  · cases h
  · split at h
    · cases h
    · split at h
      · cases h
      · split at h
        · cases h
        · cases h
          exact .inr ⟨_, _, _, by omega, ‹_›, rfl⟩

/-- Pass 1 gives consecutive addresses and stops at 65536 bytes (R110). -/
theorem laidOut_of_pass1 {lines : List Text} {n a : Nat} {st table : SymTab} {items : List Item}
    (ha : a ≤ 65536) (h : pass1 n a st lines = .ok (items, table)) : LaidOut a items := by
  induction lines generalizing n a st items with
  | nil =>
    cases h
    exact ha
  | cons l rest ih =>
    obtain ⟨st', h'⟩ | ⟨op, args, more, hfit, h', rfl⟩ := pass1_cons_ok h
    · exact ih ha h'
    · exact ⟨rfl, ih hfit h'⟩

/-- What an accepted pass 2 makes of an item: its instruction, at its address (R110). -/
theorem pass2_cons_ok {st : SymTab} {item : Item} {rest : List Item} {code : List (Nat × Instr)}
    (h : pass2 st (item :: rest) = .ok code) :
    ∃ i more, FitsLine item.op i ∧ pass2 st rest = .ok more ∧ code = (item.addr, i) :: more := by
  rw [pass2] at h
  split at h
  · cases h
  · split at h
    · cases h
    · cases h
      exact ⟨_, _, parseInstr_fitsLine ‹_›, ‹_›, rfl⟩

/-- Legal instructions at consecutive addresses from `a`, the last of them ending at most at 65536. -/
def PlacedFrom : Nat → List (Nat × Instr) → Prop
  | a, [] => a ≤ 65536
  | a, (b, i) :: rest => b = a ∧ i.wellFormed = true ∧ PlacedFrom (a + i.length) rest

theorem placedFrom_of_pass2 {st : SymTab} {items : List Item} {a : Nat} {code : List (Nat × Instr)}
    (hitems : LaidOut a items) (h : pass2 st items = .ok code) : PlacedFrom a code := by
  induction items generalizing a code with
  | nil =>
    cases h
    exact hitems
  | cons item rest ih =>
    obtain ⟨haddr, hrest⟩ := hitems
    obtain ⟨i, more, ⟨hwf, hlength⟩, h', rfl⟩ := pass2_cons_ok h
    exact ⟨haddr, hwf, ih (hlength ▸ hrest) h'⟩

/-- What an accepted program is: legal instructions placed from address 0, and their bytes. -/
theorem assembleWith_ok {opc : OpcodeMap} {source : Text} {p : Program}
    (h : assembleWith opc source = .ok p) : PlacedFrom 0 p.code ∧ p.image = emitWith opc p.code := by
  unfold assembleWith at h
  split at h
  · cases h
  · split at h
    · cases h
    · cases h
      exact ⟨placedFrom_of_pass2 (laidOut_of_pass1 (Nat.zero_le _) ‹_›) ‹_›, rfl⟩

/-! ### Placed instructions and their bytes -/

theorem emitWith_cons_length (opc : OpcodeMap) (entry : Nat × Instr) (rest : List (Nat × Instr)) :
    (emitWith opc (entry :: rest)).length = entry.2.length + (emitWith opc rest).length := by
  rw [emitWith, List.length_append, encodeWith_length]

theorem PlacedFrom.length_le {code : List (Nat × Instr)} {a : Nat} (h : PlacedFrom a code)
    (opc : OpcodeMap) : a + (emitWith opc code).length ≤ 65536 := by
  induction code generalizing a with
  | nil => exact h
  | cons entry rest ih =>
    obtain ⟨-, -, hrest⟩ := h
    have := ih hrest
    rw [emitWith_cons_length]
    omega

theorem PlacedFrom.wellFormed {code : List (Nat × Instr)} {a : Nat} (h : PlacedFrom a code) :
    ∀ entry ∈ code, entry.2.wellFormed = true := by
  induction code generalizing a with
  | nil => simp
  | cons entry rest ih =>
    obtain ⟨-, hwf, hrest⟩ := h
    exact List.forall_mem_cons.mpr ⟨hwf, ih hrest⟩

/-- The address of an instruction is where its bytes begin (R110). -/
theorem PlacedFrom.address {code : List (Nat × Instr)} {a : Nat} (h : PlacedFrom a code)
    (opc : OpcodeMap) (k : Nat) (hk : k < code.length) :
    (code[k]).1 = a + (emitWith opc (code.take k)).length := by
  induction code generalizing a k with
  | nil => cases hk
  | cons entry rest ih =>
    obtain ⟨haddr, -, hrest⟩ := h
    cases k with
    | zero => exact haddr
    | succ k =>
      rw [List.getElem_cons_succ, ih hrest k (by simpa using hk), List.take_succ_cons,
        emitWith_cons_length]
      omega

/-- Settles O58. -/
theorem assemblerEmitsOnlyLegalRegisters : Obligations.AssemblerEmitsOnlyLegalRegisters := by
  unfold Obligations.AssemblerEmitsOnlyLegalRegisters
  intro opc source p h
  obtain ⟨placed, -⟩ := assembleWith_ok h
  exact placed.wellFormed

/-- Settles O59. -/
theorem emittedOffsetsArePassOneAddresses : Obligations.EmittedOffsetsArePassOneAddresses := by
  unfold Obligations.EmittedOffsetsArePassOneAddresses
  intro opc source p h k hk
  obtain ⟨placed, -⟩ := assembleWith_ok h
  rw [placed.address opc k hk, Nat.zero_add]

/-! ### The image read back -/

/-- One instruction's bytes are read back as that instruction, whatever follows (R87). -/
theorem disassembleWith_encodeWith (opc : OpcodeMap) (fuel : Nat) (i : Instr) (tail : List Byte) :
    disassembleWith opc (fuel + 1) (encodeWith opc i ++ tail) =
      (disassembleWith opc fuel tail).map (i :: ·) := by
  have read := decodeWith_encodeWith opc i tail
  rw [encodeWith, List.cons_append] at read ⊢
  rw [disassembleWith, read]

/-- The bytes of instructions are read back as those instructions, with fuel for each byte. -/
theorem disassembleWith_emitWith (opc : OpcodeMap) (code : List (Nat × Instr)) (fuel : Nat)
    (h : (emitWith opc code).length ≤ fuel) :
    disassembleWith opc fuel (emitWith opc code) = some (code.map Prod.snd) := by
  induction code generalizing fuel with
  | nil => cases fuel <;> rfl
  | cons entry rest ih =>
    have nonempty : 1 ≤ entry.2.length := Nat.le_add_right 1 _
    rw [emitWith_cons_length] at h
    obtain ⟨fuel, rfl⟩ : ∃ n, fuel = n + 1 := ⟨fuel - 1, by omega⟩
    rw [emitWith, disassembleWith_encodeWith, ih fuel (by omega)]
    rfl

/-- Settles O57: by induction over the program, each instruction's bytes are read back before the next's. -/
theorem assembledImageDecodesToItsProgram : Obligations.AssembledImageDecodesToItsProgram := by
  unfold Obligations.AssembledImageDecodesToItsProgram
  intro opc source p h
  obtain ⟨placed, image⟩ := assembleWith_ok h
  rw [image]
  refine ⟨disassembleWith_emitWith opc p.code _ le_rfl, ?_⟩
  simpa only [Nat.zero_add] using placed.length_le opc

end Sys2Proof.Machine
end
